-- ==== Sys2Proof/Word.lean ====
section
/-! DEFINITION. The machine's words: 32-bit values, bytes and register indices (spec/00_scope.md R4–R6,
spec/10_state.md R12). -/

namespace Sys2Proof

/-- A register value, operand, result or instruction word: 32 bits, unsigned (R4 `XLEN`, R6). -/
abbrev Word := BitVec 32

/-- One byte of the memory image (R25). -/
abbrev Byte := BitVec 8

/-- A register index 0–15, the value of a 4-bit register field (R4 `NREGS`, R49). -/
abbrev RegIdx := Fin 16

/-- `all-ones`, 0xFFFFFFFF (R5). -/
def allOnes : Word := 0xFFFFFFFF#32

end Sys2Proof
end

