-- ==== Sys2Proof/Config.lean ====
section
/-! DEFINITION. What an implementation of the jcpu core fixes. The spec leaves one parameter open,
MEMORY_SIZE (spec/00_scope.md R4, decision D4). The other two configuration items it names, OPCODE_MAP and the
field layout, have decided values and stand in Sys2Proof/Decode.lean. -/

namespace Sys2Proof.Config

/-- The memory capacity in words that `State.reset` gives the machine.
DESIGN CHOICE (log entry 1): R4 leaves MEMORY_SIZE open, any integer from 1 to 2^32. The capacity is a field of
the state's memory, and every statement about a step holds for every value of that field. Unsafe for a claim
that rests on this number. -/
def resetMemorySize : Nat := 65536

/-- The least MEMORY_SIZE (R4). -/
def minMemorySize : Nat := 1

/-- The greatest MEMORY_SIZE (R4): every word is reachable by a 32-bit pc. -/
def maxMemorySize : Nat := 2 ^ 32

end Sys2Proof.Config
end

