-- ==== Sys2Proof/Syntax.lean ====
section
/-! DEFINITION. The instructions: one constructor per row of spec/opcode_table.json. An instruction is what the
decoder reads from ONE 32-bit word (spec/30_encoding.md R45, R46). The immediate words are not part of it: they
are fetched from memory while the instruction executes, and not at all when it is skipped
(spec/40_execution_cycle.md R63, R66). -/

namespace Sys2Proof

/-- The fields of an instruction word below the opcode (R45, R46). -/
structure Fields where
  /-- Condition-enable, bit 25. -/
  ce : Bool
  /-- Condition-invert, bit 24. -/
  ci : Bool
  /-- Condition register, bits 23:20. -/
  cr : RegIdx
  /-- Destination-0 register, bits 19:16. -/
  d0 : RegIdx
  /-- Destination-1 register, bits 15:12. -/
  d1 : RegIdx
  /-- Source-0 register, bits 11:8. -/
  s0 : RegIdx
  /-- Source-1 register, bits 7:4. -/
  s1 : RegIdx
  /-- Write-enable for destination-0, bit 3. -/
  we0 : Bool
  /-- Write-enable for destination-1, bit 2. -/
  we1 : Bool
  /-- Operand0 is an immediate, bit 1. -/
  imm0 : Bool
  /-- Operand1 is an immediate, bit 0. -/
  imm1 : Bool
  deriving DecidableEq, Repr

/-- The instructions of the opcode table (R52, R54). The three rows of unrecognized opcodes differ in which
opcode values they take; the last two carry the value, because ILLEGAL_OPCODE records it (R106). -/
inductive Instr where
  /-- MOV (R75): move both operands. -/
  | mov (f : Fields)
  /-- NOT (R76): complement both operands. -/
  | not (f : Fields)
  /-- OR (R77): bitwise OR. -/
  | or (f : Fields)
  /-- NOR (R78): complemented OR. -/
  | nor (f : Fields)
  /-- AND (R79): bitwise AND. -/
  | and (f : Fields)
  /-- NAND (R80): complemented AND. -/
  | nand (f : Fields)
  /-- XOR (R81): bitwise exclusive OR. -/
  | xor (f : Fields)
  /-- XNOR (R82): complemented exclusive OR. -/
  | xnor (f : Fields)
  /-- NEG (R83): two's-complement negation. -/
  | neg (f : Fields)
  /-- ADD (R84): add with carry out. -/
  | add (f : Fields)
  /-- SUB (R85): subtract with borrow mask. -/
  | sub (f : Fields)
  /-- LT (R86): unsigned less-than mask. -/
  | lt (f : Fields)
  /-- NLT (R87): unsigned not-less-than mask. -/
  | nlt (f : Fields)
  /-- SLT (R88): signed less-than mask. -/
  | slt (f : Fields)
  /-- NSLT (R89): signed not-less-than mask. -/
  | nslt (f : Fields)
  /-- SL (R90): left shift of the zero-extended operand. -/
  | sl (f : Fields)
  /-- SR (R91): right shift of the zero-extended operand. -/
  | sr (f : Fields)
  /-- SSL (R92): left shift of the sign-extended operand. -/
  | ssl (f : Fields)
  /-- SSR (R93): arithmetic right shift of the sign-extended operand. -/
  | ssr (f : Fields)
  /-- REP (R94): integer reciprocal. -/
  | rep (f : Fields)
  /-- MUL (R95): 32 × 32 → 64 multiply. -/
  | mul (f : Fields)
  /-- DIV (R96): remainder and quotient. -/
  | div (f : Fields)
  /-- STO8 (R97): store byte. -/
  | sto8 (f : Fields)
  /-- STO16 (R98): store halfword. -/
  | sto16 (f : Fields)
  /-- STO32 (R99): store word. -/
  | sto32 (f : Fields)
  /-- LOD8 (R100): load byte, zero-extended. -/
  | lod8 (f : Fields)
  /-- LOD16 (R101): load halfword, zero-extended. -/
  | lod16 (f : Fields)
  /-- LOD32 (R102): load word. -/
  | lod32 (f : Fields)
  /-- HLT (R103): halt (alias DONE). -/
  | hlt (f : Fields)
  /-- ILLEGAL, the table's row for opcode 29 (R104). -/
  | illegal29 (f : Fields)
  /-- ILLEGAL, the table's row for opcodes 30 and 31 (R104). -/
  | illegal30to31 (op : BitVec 6) (f : Fields)
  /-- ILLEGAL, the table's row for opcodes 32 to 63 (R104). -/
  | illegal32to63 (op : BitVec 6) (f : Fields)
  deriving DecidableEq, Repr

/-- The fields below the opcode. -/
def Instr.fields : Instr → Fields
  | .mov f | .not f | .or f | .nor f | .and f | .nand f | .xor f | .xnor f | .neg f | .add f
  | .sub f | .lt f | .nlt f | .slt f | .nslt f | .sl f | .sr f | .ssl f | .ssr f | .rep f
  | .mul f | .div f | .sto8 f | .sto16 f | .sto32 f | .lod8 f | .lod16 f | .lod32 f | .hlt f
  | .illegal29 f | .illegal30to31 _ f | .illegal32to63 _ f => f

end Sys2Proof
end

