-- ==== Sys2Proof/WellFormed.lean ====
section
/-! DEFINITION. Which instructions are well formed. Every value of every field is legal for opcodes 0–28
(spec/30_encoding.md R49, R55), and the field types hold exactly the encodable values. What is left to check is that
the opcode an unrecognized-opcode instruction carries lies in its row of the opcode table (R54). -/

namespace Sys2Proof

/-- The instruction is one that some 32-bit word encodes. -/
def Instr.wf : Instr → Bool
  | .mov _ => true
  | .not _ => true
  | .or _ => true
  | .nor _ => true
  | .and _ => true
  | .nand _ => true
  | .xor _ => true
  | .xnor _ => true
  | .neg _ => true
  | .add _ => true
  | .sub _ => true
  | .lt _ => true
  | .nlt _ => true
  | .slt _ => true
  | .nslt _ => true
  | .sl _ => true
  | .sr _ => true
  | .ssl _ => true
  | .ssr _ => true
  | .rep _ => true
  | .mul _ => true
  | .div _ => true
  | .sto8 _ => true
  | .sto16 _ => true
  | .sto32 _ => true
  | .lod8 _ => true
  | .lod16 _ => true
  | .lod32 _ => true
  | .hlt _ => true
  | .illegal29 _ => true
  | .illegal30to31 op _ => decide (op = 30#6 ∨ op = 31#6)
  | .illegal32to63 op _ => decide (32 ≤ op.toNat)

end Sys2Proof
end

