-- ==== Sys2Proof/Decode.lean ====
section
/-! DEFINITION. The decoder and the encoder, with the two configuration items the spec asks a model to keep in one
place each: the field layout (spec/30_encoding.md R45, decision D2) and OPCODE_MAP (R52, decision D3). -/

namespace Sys2Proof

/-- `w[lo + width - 1 : lo]` (spec/00_scope.md R5). -/
def slice (w : Word) (lo width : Nat) : Nat := w.toNat / 2 ^ lo % 2 ^ width

/-- The single bit `w[i]` (R5). -/
def bitAt (w : Word) (i : Nat) : Bool := slice w i 1 == 1

/-- A 4-bit register field whose lowest bit is `lo` (R49). -/
def regAt (w : Word) (lo : Nat) : RegIdx := ⟨slice w lo 4, Nat.mod_lt _ (by decide)⟩

/-- The opcode field, `w[31:26]` (R45, R47). -/
def opcodeOf (w : Word) : BitVec 6 := BitVec.ofNat 6 (slice w 26 6)

/-- Every field below the opcode (R46). -/
def fieldsOf (w : Word) : Fields where
  ce := bitAt w 25
  ci := bitAt w 24
  cr := regAt w 20
  d0 := regAt w 16
  d1 := regAt w 12
  s0 := regAt w 8
  s1 := regAt w 4
  we0 := bitAt w 3
  we1 := bitAt w 2
  imm0 := bitAt w 1
  imm1 := bitAt w 0

/-- OPCODE_MAP: the operation at position n has opcode n (R52). -/
def opcodeMap : List (Fields → Instr) :=
  [.mov, .not, .or, .nor, .and, .nand, .xor, .xnor, .neg, .add, .sub, .lt, .nlt, .slt, .nslt,
   .sl, .sr, .ssl, .ssr, .rep, .mul, .div, .sto8, .sto16, .sto32, .lod8, .lod16, .lod32, .hlt]

/-- The instruction with opcode `op`: the operation OPCODE_MAP names, or else an unrecognized opcode (R52, R54). -/
def instrOf (op : BitVec 6) (f : Fields) : Instr :=
  match opcodeMap[op.toNat]? with
  | some operation => operation f
  | none =>
    if op = 29#6 then .illegal29 f
    else if op.toNat < 32 then .illegal30to31 op f
    else .illegal32to63 op f

/-- The instruction decoder: pure, and total on 32-bit words (R46, R61). -/
def decode (w : Word) : Instr := instrOf (opcodeOf w) (fieldsOf w)

/-- Why a list of bytes holds no instruction word. -/
inductive DecodeError where
  /-- Fewer than the four bytes of an instruction word (R44). -/
  | truncated
  deriving DecidableEq, Repr

/-- The word four bytes hold, the first byte least significant (spec/20_memory.md R29). -/
def wordOfBytes (b0 b1 b2 b3 : Byte) : Word :=
  BitVec.ofNat 32 (b0.toNat + 2 ^ 8 * b1.toNat + 2 ^ 16 * b2.toNat + 2 ^ 24 * b3.toNat)

/-- Decoding from bytes: the instruction at the head of the list, and the bytes after its instruction word. -/
def decodeBytes : List Byte → Except DecodeError (Instr × List Byte)
  | b0 :: b1 :: b2 :: b3 :: rest => .ok (decode (wordOfBytes b0 b1 b2 b3), rest)
  | _ => .error .truncated

/-- The low `n` bytes of a number, least significant first (R29). -/
def littleEndian : Nat → Nat → List Byte
  | 0, _ => []
  | n + 1, v => BitVec.ofNat 8 v :: littleEndian n (v / 256)

/-- How many bytes the longest instruction takes: the instruction word and two immediates (R44). -/
def longestInstrBytes : Nat := 12

/-- The bytes of the instruction that a table word stands for: the low `nbits` bits of `w`, every bit above them 0,
laid out as memory holds them. -/
def tableBytes (nbits w : Nat) : List Byte := littleEndian longestInstrBytes (w % 2 ^ nbits)

/-- The instruction the decoder reads from the bits of an opcode-table row. -/
def decodeTableWord (nbits w : Nat) : Option Instr :=
  match decodeBytes (tableBytes nbits w) with
  | .ok (i, _) => some i
  | .error _ => none

/-! The encoder. -/

/-- The opcode number of each instruction (R52). -/
def Instr.opcode : Instr → BitVec 6
  | .mov _ => 0#6
  | .not _ => 1#6
  | .or _ => 2#6
  | .nor _ => 3#6
  | .and _ => 4#6
  | .nand _ => 5#6
  | .xor _ => 6#6
  | .xnor _ => 7#6
  | .neg _ => 8#6
  | .add _ => 9#6
  | .sub _ => 10#6
  | .lt _ => 11#6
  | .nlt _ => 12#6
  | .slt _ => 13#6
  | .nslt _ => 14#6
  | .sl _ => 15#6
  | .sr _ => 16#6
  | .ssl _ => 17#6
  | .ssr _ => 18#6
  | .rep _ => 19#6
  | .mul _ => 20#6
  | .div _ => 21#6
  | .sto8 _ => 22#6
  | .sto16 _ => 23#6
  | .sto32 _ => 24#6
  | .lod8 _ => 25#6
  | .lod16 _ => 26#6
  | .lod32 _ => 27#6
  | .hlt _ => 28#6
  | .illegal29 _ => 29#6
  | .illegal30to31 op _ => op
  | .illegal32to63 op _ => op

/-- The fields below the opcode, packed at their places: R45's sum without its `op` term. -/
def packFields (f : Fields) : Nat :=
  f.ce.toNat * 2 ^ 25 + f.ci.toNat * 2 ^ 24 + f.cr.val * 2 ^ 20 + f.d0.val * 2 ^ 16 + f.d1.val * 2 ^ 12
    + f.s0.val * 2 ^ 8 + f.s1.val * 2 ^ 4 + f.we0.toNat * 8 + f.we1.toNat * 4 + f.imm0.toNat * 2 + f.imm1.toNat

/-- The instruction word with opcode `op` and fields `f` (R45, the bit-packing formula). -/
def encodeWord (op : BitVec 6) (f : Fields) : Word := BitVec.ofNat 32 (op.toNat * 2 ^ 26 + packFields f)

/-- The instruction word of a well-formed instruction (R45). -/
def encode (i : Instr) : Word := encodeWord i.opcode i.fields

/-- An instruction's words in memory order: the instruction word, then operand0's immediate if `imm0` is set, then
operand1's if `imm1` is set (R44, R50). -/
def encodeWithImmediates (i : Instr) (v0 v1 : Word) : List Word :=
  encode i :: ((if i.fields.imm0 then [v0] else []) ++ (if i.fields.imm1 then [v1] else []))

/-- Words as the bytes of a program file, each least-significant byte first (R29). -/
def bytesOfWords : List Word → List Byte
  | [] => []
  | w :: rest => littleEndian 4 w.toNat ++ bytesOfWords rest

end Sys2Proof
end

