-- ==== Sys2Proof/Machine/State.lean ====
section
/-! DEFINITION. The machine's state as plain data (spec/10_state.md section 8), and the state after reset
(spec/70_reset_and_hazards.md R119–R122). -/

namespace Sys2Proof.Machine

/-- The kind of access a MEM_FAULT records (spec/60_exceptions.md R105). -/
inductive AccessKind where
  /-- Immediate fetch. -/
  | imm
  | lod8
  | lod16
  | lod32
  | sto8
  | sto16
  | sto32
  deriving DecidableEq, Repr

/-- A halt reason with the info it records (R105). -/
inductive HaltReason where
  /-- HLT, normal: an executed HLT (R110). -/
  | hlt
  /-- PC_ESCAPE, normal: FETCH with pc ≥ MEMORY_SIZE. Records the pc (R109). -/
  | pcEscape (pc : Word)
  /-- ILLEGAL_OPCODE, fatal: an executed unrecognized opcode. Records the 6-bit opcode (R106). -/
  | illegalOpcode (op : BitVec 6)
  /-- MEM_FAULT, fatal: an access outside the image. Records its kind and its unscaled address (R107). -/
  | memFault (kind : AccessKind) (addr : Word)
  /-- DIV_BY_ZERO, fatal: an executed DIV with operand1 = 0. Records operand0 (R108). -/
  | divByZero (dividend : Word)
  deriving DecidableEq, Repr

/-- The run state of the execution loop (R23). -/
inductive RunState where
  | running
  /-- HALTED(reason, info), terminal. -/
  | halted (reason : HaltReason)
  deriving DecidableEq, Repr

/-- The memory image (R22, spec/20_memory.md R25): its capacity in words, and the bytes that are not zero.
`cells` is a list of (byte offset, byte) in one canonical form, see `Memory.wf`. -/
structure Memory where
  /-- MEMORY_SIZE, in 32-bit words. No step changes it (R25). -/
  size : Nat
  cells : List Host.Cell
  deriving DecidableEq, Repr

/-- What a byte that `cells` does not list reads as. The loader zero-fills the image (R121). -/
def unlistedByte : Byte := 0#8

/-- The index of the program counter in the register file (spec/00_scope.md R4 `PC_INDEX`, R15). -/
def pcIndex : RegIdx := 15

/-- The architectural state: register file, memory image, run state, and nothing else (spec/10_state.md). -/
structure State where
  /-- x[0] … x[15]; x[15] is the pc, the same storage (R12, R15). -/
  regs : Vector Word 16
  mem : Memory
  run : RunState
  deriving DecidableEq, Repr

/-- The machine right after reset (R119–R122): every register 0, pc 0, memory with nothing but zeros, RUNNING.
It is the reset state for an empty program file; `load` gives the one for any file (R121, R130, log entry 3).
The capacity is the model's choice (log entry 1). -/
def State.reset : State where
  regs := Vector.replicate 16 0#32
  mem := Memory.mk Config.resetMemorySize []
  run := .running

/-- Why a step stops without a next state. -/
inductive Fault where
  /-- Raised by `step` in a state that is already HALTED: "no step is taken from it" (R23, R59). Carries the reason
  the machine halted for. No instruction raises it: a condition that ends the run is a next state, whose run state
  is HALTED (R111). Safe. -/
  | halted (reason : HaltReason)
  deriving DecidableEq, Repr

/-- Why the model has no answer. -/
inductive Refusal where
  /-- Raised by an arm of `exec` whose instruction has no meaning yet; every instruction has one, so nothing raises
  it. Safe. -/
  | notModelled (mnemonic : String)
  deriving DecidableEq, Repr

end Sys2Proof.Machine
end

