-- ==== Sys2Proof/Machine/Ops.lean ====
section
/-! DEFINITION. The named operations over registers and memory, and entering HALTED. -/

namespace Sys2Proof.Machine

/-! ### Register file (spec/10_state.md R12–R18) -/

/-- Read x[i] (R14). -/
def State.reg (s : State) (i : RegIdx) : Word := s.regs[i.val]

/-- Write x[i] (R14). Writing index 15 sets the pc (R18). -/
def State.setReg (s : State) (i : RegIdx) (v : Word) : State := { s with regs := s.regs.set i.val v }

/-- The program counter, x[15]: the word index of the next instruction word (R15, R16). -/
def State.pc (s : State) : Word := s.reg pcIndex

/-- `pc <- (pc + 1) mod 2^32` (R17). -/
def State.advancePc (s : State) : State := s.setReg pcIndex (s.pc + 1#32)

/-! ### Memory image, one byte (spec/20_memory.md R25) -/

/-- The byte a list of cells gives offset `o`. -/
def readCells : List Host.Cell → Nat → Byte
  | [], _ => unlistedByte
  | (a, b) :: rest, o => if a = o then b else readCells rest o

/-- Put byte `v` at offset `o`, keeping the canonical form. -/
def writeCells : List Host.Cell → Nat → Byte → List Host.Cell
  | [], o, v => if v = unlistedByte then [] else [(o, v)]
  | (a, b) :: rest, o, v =>
    if o < a then (if v = unlistedByte then (a, b) :: rest else (o, v) :: (a, b) :: rest)
    else if o = a then (if v = unlistedByte then rest else (o, v) :: rest)
    else (a, b) :: writeCells rest o v

/-- The cells' offsets rise strictly from `lo` on, all lie below `hi`, and no listed byte is what an unlisted one
reads as. -/
def canonicalCells (hi : Nat) : Nat → List Host.Cell → Bool
  | _, [] => true
  | lo, (a, b) :: rest => decide (lo ≤ a) && decide (a < hi) && decide (b ≠ unlistedByte) && canonicalCells hi (a + 1) rest

/-- The capacity in bytes, 4 × MEMORY_SIZE (R25). -/
def Memory.capacity (m : Memory) : Nat := 4 * m.size

/-- The memory is well formed: MEMORY_SIZE is in its range (spec/00_scope.md R4) and the cells are in canonical form
inside the image (R25, R40). -/
def Memory.wf (m : Memory) : Bool :=
  decide (Config.minMemorySize ≤ m.size) && decide (m.size ≤ Config.maxMemorySize) && canonicalCells m.capacity 0 m.cells

/-- `M[o]` (R25). -/
def Memory.readByte (m : Memory) (o : Nat) : Byte := readCells m.cells o

/-- `M[o] <- v` (R25). -/
def Memory.writeByte (m : Memory) (o : Nat) (v : Byte) : Memory := { m with cells := writeCells m.cells o v }

/-! ### Memory image, several bytes, little-endian (R29, spec/00_scope.md R8) -/

/-- `MemRead(o, n)`: the n bytes from offset `o` on, the first least significant. -/
def Memory.read (m : Memory) : Nat → Nat → Nat
  | _, 0 => 0
  | o, n + 1 => (m.readByte o).toNat + 256 * m.read (o + 1) n

/-- `MemWrite(o, n, v)`: the low n bytes of `v` to offsets `o … o + n - 1`, least significant first. -/
def Memory.write (m : Memory) : Nat → Nat → Nat → Memory
  | _, 0, _ => m
  | o, n + 1, v => (m.writeByte o (BitVec.ofNat 8 v)).write (o + 1) n (v / 256)

/-- An access of `n` bytes at offset `o` lies inside the image, computed exactly (R36). -/
def Memory.inBounds (m : Memory) (o n : Nat) : Bool := decide (o + n ≤ m.capacity)

/-! ### Memory unit (R28, R30–R36, spec/40_execution_cycle.md R74): the address `a` is in the unit of the width -/

/-- Load `n` bytes at address `a`, zero-extended; none if out of bounds. The byte offset is exactly `n * a` (R28). -/
def Memory.load (m : Memory) (n : Nat) (a : Word) : Option Word :=
  if m.inBounds (n * a.toNat) n then some (BitVec.ofNat 32 (m.read (n * a.toNat) n)) else none

/-- Store the low `n` bytes of `v` at address `a`; none, and nothing written, if out of bounds. -/
def Memory.store (m : Memory) (n : Nat) (a v : Word) : Option Memory :=
  if m.inBounds (n * a.toNat) n then some (m.write (n * a.toNat) n v.toNat) else none

/-- `load8(A)`: the address is a byte offset (R30). -/
def Memory.load8 (m : Memory) (a : Word) : Option Word := m.load 1 a

/-- `load16(A)`: the address is a halfword index (R31). -/
def Memory.load16 (m : Memory) (a : Word) : Option Word := m.load 2 a

/-- `load32(A)`: the address is a word index (R32). -/
def Memory.load32 (m : Memory) (a : Word) : Option Word := m.load 4 a

/-- `store8(A, v)` (R33). -/
def Memory.store8 (m : Memory) (a v : Word) : Option Memory := m.store 1 a v

/-- `store16(A, v)` (R34). -/
def Memory.store16 (m : Memory) (a v : Word) : Option Memory := m.store 2 a v

/-- `store32(A, v)` (R35). -/
def Memory.store32 (m : Memory) (a v : Word) : Option Memory := m.store 4 a v

/-! ### Entering HALTED (spec/60_exceptions.md R105, R111) -/

/-- `halt(reason, info)` and `raise Fault(reason, info)`: the run state becomes HALTED(reason, info). Registers, pc
and memory keep the values they have at that point, nothing is saved and no handler runs (R111). There is no
operation that returns from HALTED, because there is no return (R114). -/
def State.halt (s : State) (r : HaltReason) : State := { s with run := .halted r }

/-- The code of a halt reason (R105). -/
def HaltReason.code : HaltReason → Nat
  | .hlt => 0
  | .pcEscape _ => 1
  | .illegalOpcode _ => 2
  | .memFault _ _ => 3
  | .divByZero _ => 4

/-- The reason is a normal one, a successful end, and not a fault (R105). -/
def HaltReason.isNormal : HaltReason → Bool
  | .hlt => true
  | .pcEscape _ => true
  | .illegalOpcode _ => false
  | .memFault _ _ => false
  | .divByZero _ => false

end Sys2Proof.Machine
end

