-- ==== Sys2Proof/Machine/Flags.lean ====
section
/-! DEFINITION. Carry, borrow and comparison outcomes. The core has no flag register: these are ordinary result
values (spec/10_state.md R19). -/

namespace Sys2Proof.Machine

/-- A truth value as a mask: all-ones or 0 (spec/30_encoding.md R53). -/
def maskOf (c : Bool) : Word := if c then allOnes else 0#32

/-- ADD's carry out: 1 iff the exact sum reaches 2^32 (spec/42_arith_compare.md R84). -/
def carryOut (a b : Word) : Word := if 2 ^ 32 ≤ a.toNat + b.toNat then 1#32 else 0#32

/-- SUB's borrow mask: all-ones iff a < b unsigned (R85). -/
def borrowMask (a b : Word) : Word := maskOf (decide (a.toNat < b.toNat))

/-- Unsigned a < b (R86, R87). -/
def unsignedLess (a b : Word) : Bool := decide (a.toNat < b.toNat)

/-- Signed a < b, by flipping bit 31 of both and comparing unsigned (R88, R89). -/
def signedLess (a b : Word) : Bool := unsignedLess (a ^^^ 0x80000000#32) (b ^^^ 0x80000000#32)

end Sys2Proof.Machine
end

