-- ==== Sys2Proof/Machine/Operands.lean ====
section
/-! DEFINITION. The condition check and operand resolution (spec/40_execution_cycle.md R62–R66, R71). All of them act
on the state AFTER the fetch has advanced the pc (R60). -/

namespace Sys2Proof.Machine

/-- CONDITION_CHECK says skip (R62). With ce = 0, ci and cr are ignored (spec/30_encoding.md R48). -/
def State.skips (s : State) (f : Fields) : Bool :=
  f.ce && (if f.ci then s.reg f.cr != 0#32 else s.reg f.cr == 0#32)

/-- ImmFetch (R66): the word at pc, and the pc advanced; or the machine HALTED with MEM_FAULT(IMM, pc) if the pc is
outside the image. -/
def State.immFetch (s : State) : Except State (Word × State) :=
  if s.mem.size ≤ s.pc.toNat then .error (s.halt (.memFault .imm s.pc))
  else .ok (BitVec.ofNat 32 (s.mem.read (4 * s.pc.toNat) 4), s.advancePc)

/-- One operand: the next immediate word, or a register as it stands now (R64, R65, R71). -/
def State.resolveOperand (s : State) (imm : Bool) (src : RegIdx) : Except State (Word × State) :=
  if imm then s.immFetch else .ok (s.reg src, s)

/-- RESOLVE_OPERANDS: operand0, then operand1 (R64, R65). An error is the HALTED state the step ends in. -/
def State.resolveOperands (s : State) (f : Fields) : Except State (Word × Word × State) :=
  match s.resolveOperand f.imm0 f.s0 with
  | .error h => .error h
  | .ok (a, s1) =>
    match s1.resolveOperand f.imm1 f.s1 with
    | .error h => .error h
    | .ok (b, s2) => .ok (a, b, s2)

end Sys2Proof.Machine
end

