-- ==== Sys2Proof/Machine/Cycle.lean ====
section
/-! DEFINITION. The part of a step that is the same for every opcode, from CONDITION_CHECK to WRITEBACK
(spec/40_execution_cycle.md R62–R72), over an Execution Unit that each instruction supplies. -/

namespace Sys2Proof.Machine

/-- What the Execution Unit answers (R67, R74). -/
inductive EuOutcome where
  /-- The two results, and the memory image after the operation's store, if it makes one. -/
  | ok (r0 r1 : Word) (mem : Memory)
  /-- HLT. -/
  | halt
  /-- An unrecognized opcode. -/
  | illegal (op : BitVec 6)
  /-- DIV by zero, or a load or store out of bounds. -/
  | fault (r : HaltReason)

/-- An operation of the Execution Unit: it sees the memory image and the two operands, and never a register or the
pc (R67, R73; spec/90_conflicts.md C6). -/
abbrev ExecUnit := Memory → Word → Word → EuOutcome

/-- An operation that only computes its two results. -/
def computing (results : Word → Word → Word × Word) : ExecUnit := fun m a b =>
  .ok (results a b).1 (results a b).2 m

/-- WRITEBACK: destination-0, then destination-1, each only if its write-enable is set (R68), so that result1 stays
when both name one register (R69). Index 15 is the pc (R70). -/
def State.writeBack (s : State) (f : Fields) (r0 r1 : Word) : State :=
  let s0 := if f.we0 then s.setReg f.d0 r0 else s
  if f.we1 then s0.setReg f.d1 r1 else s0

/-- EXECUTE and WRITEBACK on resolved operands (R67, R68). Halt, illegal and fault end the step in HALTED, with no
write-back and memory unchanged (R111). -/
def State.finish (s : State) (f : Fields) (unit : ExecUnit) (a b : Word) : State :=
  match unit s.mem a b with
  | .ok r0 r1 m => ({ s with mem := m } : State).writeBack f r0 r1
  | .halt => s.halt .hlt
  | .illegal op => s.halt (.illegalOpcode op)
  | .fault r => s.halt r

/-- CONDITION_CHECK, then SKIP or RESOLVE_OPERANDS, EXECUTE and WRITEBACK (R72), on the state after FETCH. A skipped
instruction changes nothing more (R63). -/
def State.execute (s : State) (f : Fields) (unit : ExecUnit) : State :=
  if s.skips f then s
  else
    match s.resolveOperands f with
    | .error h => h
    | .ok (a, b, s') => s'.finish f unit a b

end Sys2Proof.Machine
end

