-- ==== Sys2Proof/Machine/ArithCompare.lean ====
section
/-! DEFINITION. Arithmetic and comparison (spec/42_arith_compare.md R83–R89). The unused result1 is 0, the spec's
decision D9 (log entry 4). -/

namespace Sys2Proof.Machine

/-- NEG (R83): (2^32 − a) mod 2^32; b is not used. -/
def negResults (a _b : Word) : Word × Word := (-a, 0#32)

/-- NEG, spec/42_arith_compare.md R83. -/
def execNeg (f : Fields) (s : State) : Host.Outcome State Fault Refusal :=
  .next (s.execute f (computing negResults))

/-- ADD (R84): (a + b) mod 2^32, and the carry. -/
def addResults (a b : Word) : Word × Word := (a + b, carryOut a b)

/-- ADD, spec/42_arith_compare.md R84. -/
def execAdd (f : Fields) (s : State) : Host.Outcome State Fault Refusal :=
  .next (s.execute f (computing addResults))

/-- SUB (R85): (a − b) mod 2^32, and the borrow mask. -/
def subResults (a b : Word) : Word × Word := (a - b, borrowMask a b)

/-- SUB, spec/42_arith_compare.md R85. -/
def execSub (f : Fields) (s : State) : Host.Outcome State Fault Refusal :=
  .next (s.execute f (computing subResults))

/-- LT (R86): all-ones iff a < b unsigned. -/
def ltResults (a b : Word) : Word × Word := (maskOf (unsignedLess a b), 0#32)

/-- LT, spec/42_arith_compare.md R86. -/
def execLt (f : Fields) (s : State) : Host.Outcome State Fault Refusal :=
  .next (s.execute f (computing ltResults))

/-- NLT (R87): all-ones iff not a < b unsigned. -/
def nltResults (a b : Word) : Word × Word := (maskOf (!unsignedLess a b), 0#32)

/-- NLT, spec/42_arith_compare.md R87. -/
def execNlt (f : Fields) (s : State) : Host.Outcome State Fault Refusal :=
  .next (s.execute f (computing nltResults))

/-- SLT (R88): all-ones iff a < b signed. -/
def sltResults (a b : Word) : Word × Word := (maskOf (signedLess a b), 0#32)

/-- SLT, spec/42_arith_compare.md R88. -/
def execSlt (f : Fields) (s : State) : Host.Outcome State Fault Refusal :=
  .next (s.execute f (computing sltResults))

/-- NSLT (R89): all-ones iff not a < b signed. -/
def nsltResults (a b : Word) : Word × Word := (maskOf (!signedLess a b), 0#32)

/-- NSLT, spec/42_arith_compare.md R89. -/
def execNslt (f : Fields) (s : State) : Host.Outcome State Fault Refusal :=
  .next (s.execute f (computing nsltResults))

end Sys2Proof.Machine
end

