-- ==== Sys2Proof/Machine/Control.lean ====
section
/-! DEFINITION. Halt and unrecognized opcodes (spec/46_control.md R103, R104). -/

namespace Sys2Proof.Machine

/-- HLT (alias DONE), spec/46_control.md R103: the machine halts, after operand resolution and with no write-back. -/
def execHlt (f : Fields) (s : State) : Host.Outcome State Fault Refusal :=
  .next (s.execute f (fun _ _ _ => .halt))

/-- ILLEGAL, opcode 29, spec/46_control.md R104: ILLEGAL_OPCODE at EXECUTE, after operand resolution. -/
def execIllegal29 (f : Fields) (s : State) : Host.Outcome State Fault Refusal :=
  .next (s.execute f (fun _ _ _ => .illegal 29#6))

/-- ILLEGAL, opcodes 30 and 31, spec/46_control.md R104. -/
def execIllegal30to31 (op : BitVec 6) (f : Fields) (s : State) : Host.Outcome State Fault Refusal :=
  .next (s.execute f (fun _ _ _ => .illegal op))

/-- ILLEGAL, opcodes 32 to 63, spec/46_control.md R104. -/
def execIllegal32to63 (op : BitVec 6) (f : Fields) (s : State) : Host.Outcome State Fault Refusal :=
  .next (s.execute f (fun _ _ _ => .illegal op))


end Sys2Proof.Machine
end

