-- ==== Sys2Proof/Machine/LoadStore.lean ====
section
/-! DEFINITION. Loads and stores (spec/45_load_store.md R97–R102). The address is operand0, in the unit of the width. -/

namespace Sys2Proof.Machine

/-- A store's operation: result0 = a and result1 = b after the store, or MEM_FAULT (R97–R99, R36). -/
def storing (store : Memory → Word → Word → Option Memory) (kind : AccessKind) : ExecUnit := fun m a b =>
  match store m a b with
  | some m' => .ok a b m'
  | none => .fault (.memFault kind a)

/-- A load's operation: result0 is the value loaded and result1 = b, or MEM_FAULT (R100–R102, R36). -/
def loading (load : Memory → Word → Option Word) (kind : AccessKind) : ExecUnit := fun m a b =>
  match load m a with
  | some v => .ok v b m
  | none => .fault (.memFault kind a)


/-- STO8, spec/45_load_store.md R97: store a byte. -/
def execSto8 (f : Fields) (s : State) : Host.Outcome State Fault Refusal :=
  .next (s.execute f (storing Memory.store8 .sto8))


/-- STO16, spec/45_load_store.md R98: store a halfword. -/
def execSto16 (f : Fields) (s : State) : Host.Outcome State Fault Refusal :=
  .next (s.execute f (storing Memory.store16 .sto16))


/-- STO32, spec/45_load_store.md R99: store a word. -/
def execSto32 (f : Fields) (s : State) : Host.Outcome State Fault Refusal :=
  .next (s.execute f (storing Memory.store32 .sto32))


/-- LOD8, spec/45_load_store.md R100: load a byte, zero-extended. -/
def execLod8 (f : Fields) (s : State) : Host.Outcome State Fault Refusal :=
  .next (s.execute f (loading Memory.load8 .lod8))


/-- LOD16, spec/45_load_store.md R101: load a halfword, zero-extended. -/
def execLod16 (f : Fields) (s : State) : Host.Outcome State Fault Refusal :=
  .next (s.execute f (loading Memory.load16 .lod16))


/-- LOD32, spec/45_load_store.md R102: load a word. -/
def execLod32 (f : Fields) (s : State) : Host.Outcome State Fault Refusal :=
  .next (s.execute f (loading Memory.load32 .lod32))


end Sys2Proof.Machine
end

