-- ==== Sys2Proof/Machine/MoveLogic.lean ====
section
/-! DEFINITION. Move and bitwise logic (spec/41_move_logic.md R75–R82). The unused result1 is 0, the spec's
decision D9 (log entry 4). -/

namespace Sys2Proof.Machine

/-- MOV (R75): result0 = a, result1 = b. -/
def movResults (a b : Word) : Word × Word := (a, b)

/-- MOV, spec/41_move_logic.md R75. -/
def execMov (f : Fields) (s : State) : Host.Outcome State Fault Refusal :=
  .next (s.execute f (computing movResults))

/-- NOT (R76): both operands complemented. -/
def notResults (a b : Word) : Word × Word := (~~~a, ~~~b)

/-- NOT, spec/41_move_logic.md R76. -/
def execNot (f : Fields) (s : State) : Host.Outcome State Fault Refusal :=
  .next (s.execute f (computing notResults))

/-- OR (R77): a | b. -/
def orResults (a b : Word) : Word × Word := (a ||| b, 0#32)

/-- OR, spec/41_move_logic.md R77. -/
def execOr (f : Fields) (s : State) : Host.Outcome State Fault Refusal :=
  .next (s.execute f (computing orResults))

/-- NOR (R78): ~(a | b). -/
def norResults (a b : Word) : Word × Word := (~~~(a ||| b), 0#32)

/-- NOR, spec/41_move_logic.md R78. -/
def execNor (f : Fields) (s : State) : Host.Outcome State Fault Refusal :=
  .next (s.execute f (computing norResults))

/-- AND (R79): a & b. -/
def andResults (a b : Word) : Word × Word := (a &&& b, 0#32)

/-- AND, spec/41_move_logic.md R79. -/
def execAnd (f : Fields) (s : State) : Host.Outcome State Fault Refusal :=
  .next (s.execute f (computing andResults))

/-- NAND (R80): ~(a & b). -/
def nandResults (a b : Word) : Word × Word := (~~~(a &&& b), 0#32)

/-- NAND, spec/41_move_logic.md R80. -/
def execNand (f : Fields) (s : State) : Host.Outcome State Fault Refusal :=
  .next (s.execute f (computing nandResults))

/-- XOR (R81): a ^ b. -/
def xorResults (a b : Word) : Word × Word := (a ^^^ b, 0#32)

/-- XOR, spec/41_move_logic.md R81. -/
def execXor (f : Fields) (s : State) : Host.Outcome State Fault Refusal :=
  .next (s.execute f (computing xorResults))

/-- XNOR (R82): ~(a ^ b). -/
def xnorResults (a b : Word) : Word × Word := (~~~(a ^^^ b), 0#32)

/-- XNOR, spec/41_move_logic.md R82. -/
def execXnor (f : Fields) (s : State) : Host.Outcome State Fault Refusal :=
  .next (s.execute f (computing xnorResults))

end Sys2Proof.Machine
end

