-- ==== Sys2Proof/Machine/MulDiv.lean ====
section
/-! DEFINITION. Reciprocal, multiply and divide (spec/44_muldiv.md R94–R96), all unsigned. -/

namespace Sys2Proof.Machine

/-- REP (R94): 1 / a, and all-ones for a = 0; b is not used. The unused result1 is 0, decision D9 (log
entry 4). -/
def repResults (a _b : Word) : Word × Word := (if a = 0#32 then allOnes else 1#32 / a, 0#32)

/-- REP, spec/44_muldiv.md R94. -/
def execRep (f : Fields) (s : State) : Host.Outcome State Fault Refusal :=
  .next (s.execute f (computing repResults))

/-- MUL (R95): the low and the high half of the exact product. -/
def mulResults (a b : Word) : Word × Word :=
  (BitVec.ofNat 32 (a.toNat * b.toNat), BitVec.ofNat 32 (a.toNat * b.toNat / 2 ^ 32))

/-- MUL, spec/44_muldiv.md R95. -/
def execMul (f : Fields) (s : State) : Host.Outcome State Fault Refusal :=
  .next (s.execute f (computing mulResults))

/-- DIV's operation (R96): the remainder and the quotient, or DIV_BY_ZERO with operand0 (R108). -/
def divUnit : ExecUnit := fun m a b =>
  if b = 0#32 then .fault (.divByZero a) else .ok (a % b) (a / b) m

/-- DIV, spec/44_muldiv.md R96. -/
def execDiv (f : Fields) (s : State) : Host.Outcome State Fault Refusal :=
  .next (s.execute f divUnit)


end Sys2Proof.Machine
end

