-- ==== Sys2Proof/Machine/Shift.lean ====
section
/-! DEFINITION. Shifts (spec/43_shift.md R90–R93): a 64-bit intermediate delivered as the pair (result1, result0). -/

namespace Sys2Proof.Machine

/-- The shift amount, b mod 256; it is not reduced further (spec/43_shift.md, R90). -/
def shiftAmount (b : Word) : Nat := b.toNat % 256


/-- A 64-bit value as (low 32 bits, high 32 bits). -/
def halves (v : BitVec 64) : Word × Word := (v.extractLsb' 0 32, v.extractLsb' 32 32)


/-- SL (R90): the zero-extended operand shifted left, kept to 64 bits. -/
def slResults (a b : Word) : Word × Word := halves (a.setWidth 64 <<< shiftAmount b)

/-- SL, spec/43_shift.md R90. -/
def execSl (f : Fields) (s : State) : Host.Outcome State Fault Refusal :=
  .next (s.execute f (computing slResults))

/-- SR (R91): the zero-extended operand shifted right. -/
def srResults (a b : Word) : Word × Word := halves (a.setWidth 64 >>> shiftAmount b)

/-- SR, spec/43_shift.md R91. -/
def execSr (f : Fields) (s : State) : Host.Outcome State Fault Refusal :=
  .next (s.execute f (computing srResults))

/-- SSL (R92): the sign-extended operand shifted left, kept to 64 bits. -/
def sslResults (a b : Word) : Word × Word := halves (a.signExtend 64 <<< shiftAmount b)

/-- SSL, spec/43_shift.md R92. -/
def execSsl (f : Fields) (s : State) : Host.Outcome State Fault Refusal :=
  .next (s.execute f (computing sslResults))

/-- SSR (R93): the sign-extended operand shifted right, copying its sign. -/
def ssrResults (a b : Word) : Word × Word := halves ((a.signExtend 64).sshiftRight (shiftAmount b))

/-- SSR, spec/43_shift.md R93. -/
def execSsr (f : Fields) (s : State) : Host.Outcome State Fault Refusal :=
  .next (s.execute f (computing ssrResults))

end Sys2Proof.Machine
end

