-- ==== Sys2Proof/Machine/Dispatch.lean ====
section
/-! DEFINITION. What each instruction does: one arm per constructor of Instr, one meaning per arm. -/

namespace Sys2Proof.Machine

def exec (i : Instr) (s : State) : Host.Outcome State Fault Refusal :=
  match i with
  | .mov f => Sys2Proof.Machine.execMov f s
  | .not f => Sys2Proof.Machine.execNot f s
  | .or f => Sys2Proof.Machine.execOr f s
  | .nor f => Sys2Proof.Machine.execNor f s
  | .and f => Sys2Proof.Machine.execAnd f s
  | .nand f => Sys2Proof.Machine.execNand f s
  | .xor f => Sys2Proof.Machine.execXor f s
  | .xnor f => Sys2Proof.Machine.execXnor f s
  | .neg f => Sys2Proof.Machine.execNeg f s
  | .add f => Sys2Proof.Machine.execAdd f s
  | .sub f => Sys2Proof.Machine.execSub f s
  | .lt f => Sys2Proof.Machine.execLt f s
  | .nlt f => Sys2Proof.Machine.execNlt f s
  | .slt f => Sys2Proof.Machine.execSlt f s
  | .nslt f => Sys2Proof.Machine.execNslt f s
  | .sl f => Sys2Proof.Machine.execSl f s
  | .sr f => Sys2Proof.Machine.execSr f s
  | .ssl f => Sys2Proof.Machine.execSsl f s
  | .ssr f => Sys2Proof.Machine.execSsr f s
  | .rep f => Sys2Proof.Machine.execRep f s
  | .mul f => Sys2Proof.Machine.execMul f s
  | .div f => Sys2Proof.Machine.execDiv f s
  | .sto8 f => Sys2Proof.Machine.execSto8 f s
  | .sto16 f => Sys2Proof.Machine.execSto16 f s
  | .sto32 f => Sys2Proof.Machine.execSto32 f s
  | .lod8 f => Sys2Proof.Machine.execLod8 f s
  | .lod16 f => Sys2Proof.Machine.execLod16 f s
  | .lod32 f => Sys2Proof.Machine.execLod32 f s
  | .hlt f => Sys2Proof.Machine.execHlt f s
  | .illegal29 f => Sys2Proof.Machine.execIllegal29 f s
  | .illegal30to31 op f => Sys2Proof.Machine.execIllegal30to31 op f s
  | .illegal32to63 op f => Sys2Proof.Machine.execIllegal32to63 op f s

end Sys2Proof.Machine
end

