-- ==== Sys2Proof/Machine/Fetch.lean ====
section
/-! DEFINITION. FETCH (spec/40_execution_cycle.md R60), and placing bytes where the next fetch reads. -/

namespace Sys2Proof.Machine

/-- FETCH (R60): the instruction word at pc, and the pc advanced; or the machine HALTED with PC_ESCAPE, nothing read or
written, if the pc is outside the image. -/
def State.fetch (s : State) : Except State (Word × State) :=
  if s.mem.size ≤ s.pc.toNat then .error (s.halt (.pcEscape s.pc))
  else .ok (BitVec.ofNat 32 (s.mem.read (4 * s.pc.toNat) 4), s.advancePc)

/-- Write bytes at consecutive offsets from `o` on; what would lie past the end of the image is left out. -/
def Memory.place (m : Memory) : Nat → List Byte → Memory
  | _, [] => m
  | o, b :: rest => if o < m.capacity then (m.writeByte o b).place (o + 1) rest else m

/-- The machine RUNNING with its pc inside the image: a pc outside becomes 0 (log entry 5). -/
def State.fetchable (s : State) : State :=
  let s' : State := { s with run := .running }
  if s.mem.size ≤ s.pc.toNat then s'.setReg pcIndex 0#32 else s'

/-- Bytes placed in memory from the instruction word at pc on. -/
def State.placeAtPc (s : State) (bytes : List Byte) : State :=
  { s with mem := s.mem.place (4 * s.pc.toNat) bytes }

end Sys2Proof.Machine
end

