-- ==== Sys2Proof/Machine/Step.lean ====
section
/-! DEFINITION. One step of the execution loop (spec/40_execution_cycle.md R59, R72). -/

namespace Sys2Proof.Machine

/-- One step. From RUNNING: FETCH, DECODE, and then what the instruction does; or HALTED(PC_ESCAPE, pc) when the pc is
outside the image (R60, R72). From HALTED no step exists (R23, R59): the model answers a fault. -/
def step (s : State) : Host.Outcome State Fault Refusal :=
  match s.run with
  | .halted r => .fault (.halted r)
  | .running =>
    match s.fetch with
    | .error h => .next h
    | .ok (w, s') => exec (decode w) s'

/-- The state in which the next step fetches and runs the instruction whose bits are `w`: the bytes of that
instruction stand at the pc, in a machine that is RUNNING with its pc inside the image. It stands for the loader
placing a program (spec/70_reset_and_hazards.md R130; log entries 3 and 5). -/
def State.withFetchWord (s : State) (nbits w : Nat) : State :=
  s.fetchable.placeAtPc (tableBytes nbits w)

end Sys2Proof.Machine
end

