-- ==== Sys2Proof/Laws/State.lean ====
section
/-! SUPPORT. What each update of the state leaves in each field, so that no proof unfolds a record update. -/

namespace Sys2Proof.Machine

variable (s : State) (i j : RegIdx) (v : Word) (m : Memory) (r : HaltReason)

@[simp] theorem State.setReg_mem : (s.setReg i v).mem = s.mem := rfl
@[simp] theorem State.setReg_run : (s.setReg i v).run = s.run := rfl

theorem State.setReg_reg : (s.setReg i v).reg j = if j = i then v else s.reg j := by
  simp only [State.setReg, State.reg, Vector.getElem_set, Fin.val_inj, eq_comm]

@[simp] theorem State.setReg_reg_same : (s.setReg i v).reg i = v := by simp [State.setReg_reg]

theorem State.setReg_reg_of_ne (h : j ≠ i) : (s.setReg i v).reg j = s.reg j := by simp [State.setReg_reg, h]

theorem State.pc_eq : s.pc = s.reg pcIndex := rfl

@[simp] theorem State.advancePc_mem : s.advancePc.mem = s.mem := rfl
@[simp] theorem State.advancePc_run : s.advancePc.run = s.run := rfl
@[simp] theorem State.advancePc_pc : s.advancePc.pc = s.pc + 1#32 := State.setReg_reg_same _ _ _

theorem State.advancePc_reg : s.advancePc.reg j = if j = pcIndex then s.pc + 1#32 else s.reg j :=
  State.setReg_reg _ _ _ _

@[simp] theorem State.halt_run : (s.halt r).run = .halted r := rfl
@[simp] theorem State.halt_mem : (s.halt r).mem = s.mem := rfl
@[simp] theorem State.halt_regs : (s.halt r).regs = s.regs := rfl
@[simp] theorem State.halt_reg : (s.halt r).reg j = s.reg j := rfl
@[simp] theorem State.halt_pc : (s.halt r).pc = s.pc := rfl

@[simp] theorem State.withMem_reg : ({ s with mem := m } : State).reg j = s.reg j := rfl
@[simp] theorem State.withMem_mem : ({ s with mem := m } : State).mem = m := rfl
@[simp] theorem State.withMem_run : ({ s with mem := m } : State).run = s.run := rfl

/-- Two states with the same registers, memory and run state are one. -/
theorem State.ext_fields {s t : State} (hr : ∀ i, s.reg i = t.reg i) (hm : s.mem = t.mem) (hn : s.run = t.run) :
    s = t := by
  cases s; cases t
  simp only [State.mk.injEq] at hm hn ⊢
  exact ⟨Vector.ext fun k hk => hr ⟨k, hk⟩, hm, hn⟩

variable (f : Fields) (r0 r1 : Word)

@[simp] theorem State.writeBack_mem : (s.writeBack f r0 r1).mem = s.mem := by
  unfold State.writeBack; cases f.we0 <;> cases f.we1 <;> rfl

@[simp] theorem State.writeBack_run : (s.writeBack f r0 r1).run = s.run := by
  unfold State.writeBack; cases f.we0 <;> cases f.we1 <;> rfl

/-- What write-back leaves in every register. -/
theorem State.writeBack_reg : (s.writeBack f r0 r1).reg j =
    if f.we1 = true ∧ j = f.d1 then r1 else if f.we0 = true ∧ j = f.d0 then r0 else s.reg j := by
  unfold State.writeBack
  cases f.we0 <;> cases f.we1 <;> simp [State.setReg_reg]

end Sys2Proof.Machine
end

