-- ==== Sys2Proof/Laws/Memory.lean ====
section
/-! SUPPORT. The laws of the memory image: read after write, the canonical form, and what each access does. -/

namespace Sys2Proof.Machine

/-! ### Cells -/

/-- Raising the lower bound of canonical cells is what dropping smaller offsets asks; lowering it is always allowed. -/
theorem canonicalCells_mono {hi lo lo' : Nat} {cs : List Host.Cell} (h : canonicalCells hi lo cs = true)
    (hlo : lo' ≤ lo) : canonicalCells hi lo' cs = true := by
  cases cs with
  | nil => rfl
  | cons c rest =>
    obtain ⟨a, b⟩ := c
    simp only [canonicalCells, Bool.and_eq_true, decide_eq_true_eq] at h ⊢
    exact ⟨⟨⟨by omega, h.1.1.2⟩, h.1.2⟩, h.2⟩

/-- Canonical cells list nothing below their lower bound. -/
theorem readCells_below {hi lo o : Nat} {cs : List Host.Cell} (h : canonicalCells hi lo cs = true) (ho : o < lo) :
    readCells cs o = unlistedByte := by
  induction cs generalizing lo with
  | nil => rfl
  | cons c rest ih =>
    obtain ⟨a, b⟩ := c
    simp only [canonicalCells, Bool.and_eq_true, decide_eq_true_eq] at h
    have hne : a ≠ o := by omega
    simp only [readCells, hne, if_false]
    exact ih h.2 (by omega)

/-- Canonical cells list nothing at or above their upper bound. -/
theorem readCells_above {hi lo o : Nat} {cs : List Host.Cell} (h : canonicalCells hi lo cs = true) (ho : hi ≤ o) :
    readCells cs o = unlistedByte := by
  induction cs generalizing lo with
  | nil => rfl
  | cons c rest ih =>
    obtain ⟨a, b⟩ := c
    simp only [canonicalCells, Bool.and_eq_true, decide_eq_true_eq] at h
    have hne : a ≠ o := by omega
    simp only [readCells, hne, if_false]
    exact ih h.2

/-- Writing a byte keeps the canonical form. -/
theorem canonicalCells_writeCells {hi lo o : Nat} {v : Byte} {cs : List Host.Cell}
    (h : canonicalCells hi lo cs = true) (hlo : lo ≤ o) (hhi : o < hi) :
    canonicalCells hi lo (writeCells cs o v) = true := by
  induction cs generalizing lo with
  | nil =>
    simp only [writeCells]
    split
    · rfl
    · simp [canonicalCells, *]
  | cons c rest ih =>
    obtain ⟨a, b⟩ := c
    have h' := h
    simp only [canonicalCells, Bool.and_eq_true, decide_eq_true_eq] at h
    simp only [writeCells]
    split
    · split
      · exact h'
      · simp only [canonicalCells, Bool.and_eq_true, decide_eq_true_eq]
        exact ⟨⟨⟨hlo, hhi⟩, ‹_›⟩, ⟨⟨by omega, h.1.1.2⟩, h.1.2⟩, h.2⟩
    · split
      · subst o
        split
        · exact canonicalCells_mono h.2 (by omega)
        · simp only [canonicalCells, Bool.and_eq_true, decide_eq_true_eq]
          exact ⟨⟨h.1.1, ‹_›⟩, h.2⟩
      · simp only [canonicalCells, Bool.and_eq_true, decide_eq_true_eq]
        exact ⟨h.1, ih h.2 (by omega)⟩

/-- Read after write, over canonical cells: the written offset holds the byte, every other offset is as before. -/
theorem readCells_writeCells {hi lo o p : Nat} {v : Byte} {cs : List Host.Cell}
    (h : canonicalCells hi lo cs = true) :
    readCells (writeCells cs o v) p = if p = o then v else readCells cs p := by
  induction cs generalizing lo with
  | nil =>
    simp only [writeCells]
    split
    · rename_i hv
      simp [readCells, hv]
    · simp only [readCells, eq_comm (a := o)]
  | cons c rest ih =>
    obtain ⟨a, b⟩ := c
    have h' := h
    simp only [canonicalCells, Bool.and_eq_true, decide_eq_true_eq] at h
    simp only [writeCells]
    split
    · rename_i hoa
      have hall : canonicalCells hi (o + 1) ((a, b) :: rest) = true := by
        simp only [canonicalCells, Bool.and_eq_true, decide_eq_true_eq]
        exact ⟨⟨⟨by omega, h.1.1.2⟩, h.1.2⟩, h.2⟩
      have hz := readCells_below (o := o) hall (by omega)
      split
      · subst v
        by_cases hp : p = o
        · rw [if_pos hp, hp, hz]
        · rw [if_neg hp]
      · simp only [readCells, eq_comm (a := o)]
    · split
      · subst o
        have hz := readCells_below (o := a) h.2 (by omega)
        split
        · subst v
          by_cases hp : p = a
          · rw [if_pos hp, hp, hz]
          · simp [readCells, hp, Ne.symm hp]
        · by_cases hp : p = a
          · simp [readCells, hp]
          · simp [readCells, hp, Ne.symm hp]
      · by_cases hp : a = p
        · subst hp
          rename_i hne
          simp [readCells, Ne.symm hne]
        · simp only [readCells, hp, if_false]
          exact ih h.2

/-! ### The image -/

/-- What `Memory.wf` says. -/
theorem Memory.wf_iff (m : Memory) : m.wf = true ↔
    (1 ≤ m.size ∧ m.size ≤ 2 ^ 32) ∧ canonicalCells m.capacity 0 m.cells = true := by
  simp only [Memory.wf, Bool.and_eq_true, decide_eq_true_eq]
  exact Iff.rfl

@[simp] theorem Memory.writeByte_size (m : Memory) (o : Nat) (v : Byte) : (m.writeByte o v).size = m.size := rfl
@[simp] theorem Memory.writeByte_capacity (m : Memory) (o : Nat) (v : Byte) :
    (m.writeByte o v).capacity = m.capacity := rfl

/-- A byte written inside the image keeps the memory well formed. -/
theorem Memory.writeByte_wf {m : Memory} {o : Nat} (v : Byte) (h : m.wf = true) (ho : o < m.capacity) :
    (m.writeByte o v).wf = true := by
  rw [Memory.wf_iff] at h ⊢
  exact ⟨h.1, canonicalCells_writeCells h.2 (Nat.zero_le _) ho⟩

/-- Read after write, one byte. -/
theorem Memory.readByte_writeByte {m : Memory} (h : m.wf = true) (o p : Nat) (v : Byte) :
    (m.writeByte o v).readByte p = if p = o then v else m.readByte p :=
  readCells_writeCells ((Memory.wf_iff m).mp h).2

/-- Offsets outside the image read as zero. -/
theorem Memory.readByte_outside {m : Memory} (h : m.wf = true) {o : Nat} (ho : m.capacity ≤ o) :
    m.readByte o = unlistedByte :=
  readCells_above ((Memory.wf_iff m).mp h).2 ho

@[simp] theorem Memory.write_size (m : Memory) (o n v : Nat) : (m.write o n v).size = m.size := by
  induction n generalizing m o v with
  | zero => rfl
  | succ n ih => simp [Memory.write, ih]

/-- A write of several bytes inside the image keeps the memory well formed. -/
theorem Memory.write_wf {m : Memory} {o n v : Nat} (h : m.wf = true) (hb : o + n ≤ m.capacity) :
    (m.write o n v).wf = true := by
  induction n generalizing m o v with
  | zero => exact h
  | succ n ih => exact ih (Memory.writeByte_wf _ h (by omega)) (by simp; omega)

/-- What a write of several bytes inside the image leaves in every byte. -/
theorem Memory.readByte_write {m : Memory} {o n v : Nat} (h : m.wf = true) (hb : o + n ≤ m.capacity) (p : Nat) :
    (m.write o n v).readByte p =
      if o ≤ p ∧ p < o + n then BitVec.ofNat 8 (v / 256 ^ (p - o)) else m.readByte p := by
  induction n generalizing m o v with
  | zero =>
    have : ¬ (o ≤ p ∧ p < o + 0) := by omega
    rw [if_neg this, Memory.write]
  | succ n ih =>
    rw [Memory.write, ih (Memory.writeByte_wf _ h (by omega)) (by simp; omega), Memory.readByte_writeByte h]
    by_cases hp : p = o
    · subst hp
      have h1 : ¬ (p + 1 ≤ p ∧ p < p + 1 + n) := by omega
      rw [if_neg h1, if_pos rfl, if_pos (by omega), Nat.sub_self, pow_zero, Nat.div_one]
    · by_cases hin : o ≤ p ∧ p < o + (n + 1)
      · have h1 : o + 1 ≤ p ∧ p < o + 1 + n := by omega
        obtain ⟨k, rfl⟩ : ∃ k, p = o + 1 + k := ⟨p - (o + 1), by omega⟩
        have e1 : o + 1 + k - (o + 1) = k := by omega
        have e2 : o + 1 + k - o = k + 1 := by omega
        rw [if_pos h1, if_pos hin, e1, e2, Nat.div_div_eq_div_mul, pow_succ, Nat.mul_comm]
      · have h1 : ¬ (o + 1 ≤ p ∧ p < o + 1 + n) := by omega
        rw [if_neg h1, if_neg hp, if_neg hin]

/-- Reads of several bytes agree where every byte agrees. -/
theorem Memory.read_congr {m m' : Memory} (h : ∀ p, m.readByte p = m'.readByte p) (o n : Nat) :
    m.read o n = m'.read o n := by
  induction n generalizing o with
  | zero => rfl
  | succ n ih => simp [Memory.read, h, ih]

/-- A read of several bytes is below 256 to their number. -/
theorem Memory.read_lt (m : Memory) (o n : Nat) : m.read o n < 256 ^ n := by
  induction n generalizing o with
  | zero => simp [Memory.read]
  | succ n ih =>
    have h1 := ih (o + 1)
    have h2 := (m.readByte o).isLt
    simp only [Memory.read, pow_succ]
    omega

/-- Reading what was written: the low bytes of the value. -/
theorem Memory.read_write {m : Memory} {o n v : Nat} (h : m.wf = true) (hb : o + n ≤ m.capacity) :
    (m.write o n v).read o n = v % 256 ^ n := by
  have key : ∀ (k : Nat) (d : Nat), d + k ≤ n → (m.write o n v).read (o + d) k = v / 256 ^ d % 256 ^ k := by
    intro k
    induction k with
    | zero => intro d _; simp [Memory.read, Nat.mod_one]
    | succ k ih =>
      intro d hd
      have hin : o ≤ o + d ∧ o + d < o + n := by omega
      have e : o + d - o = d := by omega
      have ih' := ih (d + 1) (by omega)
      rw [← Nat.add_assoc] at ih'
      rw [Memory.read, Memory.readByte_write h hb, if_pos hin, e, ih', BitVec.toNat_ofNat,
        Nat.pow_succ 256 d, ← Nat.div_div_eq_div_mul, pow_succ' 256 k, Nat.mod_mul]
  simpa using key n 0 (by omega)

/-! ### The memory unit -/

/-- What a load answers: the little-endian value when every byte is in the image, and nothing otherwise. -/
theorem Memory.load_eq (m : Memory) (n : Nat) (a : Word) : m.load n a =
    if n * a.toNat + n ≤ m.capacity then some (BitVec.ofNat 32 (m.read (n * a.toNat) n)) else none := by
  simp [Memory.load, Memory.inBounds]

/-- What a store answers: the written memory when every byte is in the image, and nothing otherwise. -/
theorem Memory.store_eq (m : Memory) (n : Nat) (a v : Word) : m.store n a v =
    if n * a.toNat + n ≤ m.capacity then some (m.write (n * a.toNat) n v.toNat) else none := by
  simp [Memory.store, Memory.inBounds]

/-- A store that is made keeps the memory well formed and its capacity. -/
theorem Memory.store_wf {m m' : Memory} {n : Nat} {a v : Word} (hs : m.store n a v = some m') (h : m.wf = true) :
    m'.wf = true ∧ m'.size = m.size := by
  rw [Memory.store_eq] at hs
  split at hs
  · cases hs
    exact ⟨Memory.write_wf h ‹_›, Memory.write_size _ _ _ _⟩
  · cases hs

@[simp] theorem Memory.place_size (m : Memory) (o : Nat) (bs : List Byte) : (m.place o bs).size = m.size := by
  induction bs generalizing m o with
  | nil => rfl
  | cons b rest ih =>
    rw [Memory.place]
    split
    · exact ih _ _
    · rfl

/-- Placing bytes keeps the memory well formed. -/
theorem Memory.place_wf {m : Memory} {o : Nat} {bs : List Byte} (h : m.wf = true) : (m.place o bs).wf = true := by
  induction bs generalizing m o with
  | nil => exact h
  | cons b rest ih =>
    rw [Memory.place]
    split
    · exact ih (Memory.writeByte_wf _ h ‹_›)
    · exact h

/-- The memory right after reset has the canonical form. -/
theorem reset_mem_wf : State.reset.mem.wf = true := by decide

end Sys2Proof.Machine
end

