-- ==== Sys2Proof/Machine/Loader.lean ====
section
/-! DEFINITION. What a run starts from and what the host sees at its end (spec/70_reset_and_hazards.md R119–R122, R130,
R133). The reporter's text and the command surface are outside the core (spec/00_scope.md R3). -/

namespace Sys2Proof.Machine

/-- Why the loader rejects a program file (R130). -/
inductive LoadError where
  /-- The file is longer than the memory's 4 · MEMORY_SIZE bytes. No step runs. -/
  | tooLarge
  deriving DecidableEq, Repr

/-- The cells of a list of bytes at consecutive offsets from `o` on. -/
def cellsOfBytes : Nat → List Byte → List Host.Cell
  | _, [] => []
  | o, b :: rest => if b = unlistedByte then cellsOfBytes (o + 1) rest else (o, b) :: cellsOfBytes (o + 1) rest

/-- The reset state of a machine of `size` words with a program file loaded: the file's bytes from offset 0, zero
elsewhere, registers and pc 0, RUNNING (R119–R122). A file larger than the memory is rejected (R130). -/
def load (size : Nat) (file : List Byte) : Except LoadError State :=
  if file.length ≤ 4 * size then
    .ok { regs := Vector.replicate 16 0#32, mem := Memory.mk size (cellsOfBytes 0 file), run := .running }
  else .error .tooLarge

/-- What the host observes at the end of a run: (reason, info, x[0..15], memory image) (R133). -/
structure Observation where
  reason : HaltReason
  regs : Vector Word 16
  mem : Memory
  deriving DecidableEq, Repr

/-- The observation of a state, if it is HALTED (R133). -/
def State.observe (s : State) : Option Observation :=
  match s.run with
  | .running => none
  | .halted r => some (Observation.mk r s.regs s.mem)

/-- What running the machine for at most some number of steps shows. -/
inductive RunResult where
  /-- The run ended in HALTED. -/
  | ended (o : Observation)
  /-- The machine is still RUNNING. This is no end of the run (R133, decision D22). -/
  | unfinished (s : State)
  /-- A step from RUNNING gave no next state. It never happens. -/
  | stuck (s : State)
  deriving DecidableEq, Repr

/-- Run the machine for at most `k` steps (R133). -/
def runFor : Nat → State → RunResult
  | 0, s =>
    match s.observe with
    | some o => .ended o
    | none => .unfinished s
  | k + 1, s =>
    match s.observe with
    | some o => .ended o
    | none =>
      match step s with
      | .next t => runFor k t
      | .fault _ => .stuck s
      | .refused _ => .stuck s

end Sys2Proof.Machine
end

