-- ==== Sys2Proof/Safety.lean ====
section
/-! DEFINITION. The terms statements use: the invariant, a successful end, and, for one instruction, when it executes,
which operands it gets and what it leaves, each written from the spec's rules and not from the meanings. -/

namespace Sys2Proof.Machine

/-- The invariant: MEMORY_SIZE is legal and the memory is in canonical form inside the image (spec/00_scope.md R4,
spec/20_memory.md R25). Every register value is legal (spec/10_state.md R20), so it says nothing of registers. -/
abbrev State.Inv (s : State) : Prop := s.mem.wf = true

/-- A run succeeds iff it ended with a normal reason (spec/70_reset_and_hazards.md R133). -/
def State.succeeded (s : State) : Prop := ∃ r, s.run = .halted r ∧ r.isNormal = true

/-- The word at word index `a`, from its four bytes (spec/20_memory.md R32). -/
def wordAt (m : Memory) (a : Nat) : Word :=
  BitVec.ofNat 32 ((m.readByte (4 * a)).toNat + 2 ^ 8 * (m.readByte (4 * a + 1)).toNat
    + 2 ^ 16 * (m.readByte (4 * a + 2)).toNat + 2 ^ 24 * (m.readByte (4 * a + 3)).toNat)

/-! In the terms below `s` is the state after FETCH: its pc is the word after the instruction word. -/

/-- The instruction is not skipped: it is unconditional, or x[cr] is non-zero (ci = 0) or zero (ci = 1)
(spec/40_execution_cycle.md R62). -/
abbrev Executes (f : Fields) (s : State) : Prop := f.ce = true → (s.reg f.cr = 0#32 ↔ f.ci = true)

/-- Where operand1's immediate would stand: the pc, past operand0's immediate if there is one (R65, R71). -/
def pcForOperand1 (f : Fields) (s : State) : Word := s.pc + (if f.imm0 then 1#32 else 0#32)

/-- The pc once every immediate is consumed (R66). -/
def pcAfterOperands (f : Fields) (s : State) : Word := pcForOperand1 f s + (if f.imm1 then 1#32 else 0#32)

/-- Every immediate the instruction consumes lies in the image (R66). -/
abbrev OperandsInImage (f : Fields) (s : State) : Prop :=
  (f.imm0 = true → s.pc.toNat < s.mem.size) ∧ (f.imm1 = true → (pcForOperand1 f s).toNat < s.mem.size)

/-- The value of operand0 (R64, R71). -/
def operand0 (f : Fields) (s : State) : Word := if f.imm0 then wordAt s.mem s.pc.toNat else s.reg f.s0

/-- The value of operand1 (R65, R71): as source register 15 it is the pc past operand0's immediate. -/
def operand1 (f : Fields) (s : State) : Word :=
  if f.imm1 then wordAt s.mem (pcForOperand1 f s).toNat
  else if f.s1 = pcIndex then pcForOperand1 f s
  else s.reg f.s1

/-- The register file after write-back of `r0` and `r1` (R68–R70): destination-1, then destination-0, then the advanced
pc, and every other register as before. -/
abbrev RegistersAfter (f : Fields) (s t : State) (r0 r1 : Word) : Prop :=
  ∀ i, t.reg i =
    if f.we1 = true ∧ i = f.d1 then r1
    else if f.we0 = true ∧ i = f.d0 then r0
    else if i = pcIndex then pcAfterOperands f s
    else s.reg i

/-- The instruction completes with results `r0` and `r1`: the enabled destinations and the pc are as R68–R70 say, every
other register, every byte of memory, the capacity and the run state are unchanged. -/
def CompletesWith (i : Instr) (s : State) (r0 r1 : Word) : Prop :=
  ∃ t, exec i s = .next t ∧ RegistersAfter i.fields s t r0 r1
    ∧ (∀ o, t.mem.readByte o = s.mem.readByte o) ∧ t.mem.size = s.mem.size ∧ t.run = s.run

/-- The instruction completes with results `a` and `b` after storing the low `n` bytes of `b` from byte offset `n * a` on,
least significant first; every other byte, every other register, the capacity and the run state are unchanged
(spec/20_memory.md R28, R29, R33–R35). -/
def CompletesStoring (i : Instr) (s : State) (n : Nat) (a b : Word) : Prop :=
  ∃ t, exec i s = .next t ∧ RegistersAfter i.fields s t a b
    ∧ (∀ o, t.mem.readByte o =
        if n * a.toNat ≤ o ∧ o < n * a.toNat + n then BitVec.ofNat 8 (b.toNat / 256 ^ (o - n * a.toNat))
        else s.mem.readByte o)
    ∧ t.mem.size = s.mem.size ∧ t.run = s.run

/-- The instruction ends the run at EXECUTE with reason `r`: the machine is HALTED(r), the pc is past every immediate
consumed, every other register, every byte of memory and the capacity are unchanged (spec/60_exceptions.md R111). -/
def HaltsWith (i : Instr) (s : State) (r : HaltReason) : Prop :=
  ∃ t, exec i s = .next t ∧ t.run = .halted r
    ∧ (∀ j, t.reg j = if j = pcIndex then pcAfterOperands i.fields s else s.reg j)
    ∧ (∀ o, t.mem.readByte o = s.mem.readByte o) ∧ t.mem.size = s.mem.size

/-- The low word of a 64-bit value, `v[31:0]` (spec/43_shift.md R90). -/
def lowWord (v : Nat) : Word := BitVec.ofNat 32 (v % 2 ^ 32)

/-- The high word of a 64-bit value, `v[63:32]` (R90). -/
def highWord (v : Nat) : Word := BitVec.ofNat 32 (v / 2 ^ 32 % 2 ^ 32)

/-- `sext_64(a)` as a number (spec/00_scope.md R7). -/
def signExtended (a : Word) : Nat := if a.toNat < 2 ^ 31 then a.toNat else a.toNat + (2 ^ 64 - 2 ^ 32)

/-- The word `base | fields`, as the instruction rules of spec/41_move_logic.md to spec/46_control.md write an encoding, is
what the instruction encodes to and decodes from. -/
def EncodedAt (i : Instr) (base : Word) : Prop :=
  encode i = base ||| BitVec.ofNat 32 (packFields i.fields)
    ∧ decode (base ||| BitVec.ofNat 32 (packFields i.fields)) = i

/-! In the terms below `s` is a RUNNING state before FETCH. -/

/-- The instruction word the step from `s` fetches (spec/40_execution_cycle.md R60). -/
def fetchedWord (s : State) : Word := wordAt s.mem s.pc.toNat

/-- The opcode of the fetched word, as a number (spec/30_encoding.md R47). -/
def fetchedOpcode (s : State) : Nat := (fetchedWord s).toNat / 2 ^ 26

/-- Operand0 of the fetched instruction. -/
def fetchedOperand0 (s : State) : Word := operand0 (fieldsOf (fetchedWord s)) s.advancePc

/-- Operand1 of the fetched instruction. -/
def fetchedOperand1 (s : State) : Word := operand1 (fieldsOf (fetchedWord s)) s.advancePc

/-- What must hold of the state a step starts from for that step to halt with reason `r`: R105's column "raised by", with
the info recorded (spec/60_exceptions.md R105–R110). -/
def HaltCause (s : State) : HaltReason → Prop
  | .pcEscape p => p = s.pc ∧ s.mem.size ≤ s.pc.toNat
  | .hlt => fetchedOpcode s = 28
  | .illegalOpcode op => fetchedOpcode s = op.toNat ∧ 29 ≤ op.toNat
  | .divByZero a => fetchedOpcode s = 21 ∧ a = fetchedOperand0 s ∧ fetchedOperand1 s = 0#32
  | .memFault .imm a => s.mem.size ≤ a.toNat ∧
      (((fieldsOf (fetchedWord s)).imm0 = true ∧ a = s.pc + 1#32) ∨
        ((fieldsOf (fetchedWord s)).imm1 = true ∧ a = pcForOperand1 (fieldsOf (fetchedWord s)) s.advancePc))
  | .memFault .sto8 a => fetchedOpcode s = 22 ∧ a = fetchedOperand0 s ∧ 4 * s.mem.size < a.toNat + 1
  | .memFault .sto16 a => fetchedOpcode s = 23 ∧ a = fetchedOperand0 s ∧ 4 * s.mem.size < 2 * a.toNat + 2
  | .memFault .sto32 a => fetchedOpcode s = 24 ∧ a = fetchedOperand0 s ∧ s.mem.size ≤ a.toNat
  | .memFault .lod8 a => fetchedOpcode s = 25 ∧ a = fetchedOperand0 s ∧ 4 * s.mem.size < a.toNat + 1
  | .memFault .lod16 a => fetchedOpcode s = 26 ∧ a = fetchedOperand0 s ∧ 4 * s.mem.size < 2 * a.toNat + 2
  | .memFault .lod32 a => fetchedOpcode s = 27 ∧ a = fetchedOperand0 s ∧ s.mem.size ≤ a.toNat

/-- The pc of the HALTED state a step from `s` ends in with reason `r` (R111): the escaping pc, the pc of the missing
immediate word, or the pc past every immediate consumed. -/
def haltPc (s : State) : HaltReason → Word
  | .pcEscape p => p
  | .memFault .imm a => a
  | .hlt => pcAfterOperands (fieldsOf (fetchedWord s)) s.advancePc
  | .illegalOpcode _ => pcAfterOperands (fieldsOf (fetchedWord s)) s.advancePc
  | .divByZero _ => pcAfterOperands (fieldsOf (fetchedWord s)) s.advancePc
  | .memFault .lod8 _ => pcAfterOperands (fieldsOf (fetchedWord s)) s.advancePc
  | .memFault .lod16 _ => pcAfterOperands (fieldsOf (fetchedWord s)) s.advancePc
  | .memFault .lod32 _ => pcAfterOperands (fieldsOf (fetchedWord s)) s.advancePc
  | .memFault .sto8 _ => pcAfterOperands (fieldsOf (fetchedWord s)) s.advancePc
  | .memFault .sto16 _ => pcAfterOperands (fieldsOf (fetchedWord s)) s.advancePc
  | .memFault .sto32 _ => pcAfterOperands (fieldsOf (fetchedWord s)) s.advancePc

/-- Byte offset `o` is one that a store with opcode `op` at address `a` writes (spec/20_memory.md R28). -/
def StoreCovers (op : Nat) (a : Word) (o : Nat) : Prop :=
  (op = 22 ∧ o = a.toNat) ∨ (op = 23 ∧ 2 * a.toNat ≤ o ∧ o < 2 * a.toNat + 2) ∨
    (op = 24 ∧ 4 * a.toNat ≤ o ∧ o < 4 * a.toNat + 4)

end Sys2Proof.Machine
end

