-- ==== Sys2Proof/Laws/Cycle.lean ====
section
/-! SUPPORT. What each part of the execution cycle can do, said once: fetching an immediate, resolving the operands,
finishing, and executing. -/

namespace Sys2Proof.Machine

/-- The four bytes of a word read are the word at that index. -/
theorem ofNat_read_four (m : Memory) (a : Nat) : BitVec.ofNat 32 (m.read (4 * a) 4) = wordAt m a := by
  unfold wordAt
  congr 1
  simp only [Memory.read, Nat.add_assoc, Nat.reduceAdd]
  omega

/-- Skipping is what `Executes` rules out. -/
theorem skips_eq_false_iff (f : Fields) (s : State) : s.skips f = false ↔ Executes f s := by
  unfold State.skips Executes
  cases f.ce <;> cases f.ci <;> simp

theorem skips_eq_true_iff (f : Fields) (s : State) : s.skips f = true ↔ ¬ Executes f s := by
  rw [← skips_eq_false_iff, Bool.not_eq_false]

/-- ImmFetch inside the image. -/
theorem immFetch_ok {s : State} (h : s.pc.toNat < s.mem.size) :
    s.immFetch = .ok (wordAt s.mem s.pc.toNat, s.advancePc) := by
  rw [State.immFetch, if_neg (by omega), ofNat_read_four]

/-- ImmFetch outside the image. -/
theorem immFetch_error {s : State} (h : s.mem.size ≤ s.pc.toNat) :
    s.immFetch = .error (s.halt (.memFault .imm s.pc)) := by
  rw [State.immFetch, if_pos h]

/-- The state after the operands are resolved: only the pc has moved. -/
def State.afterOperands (s : State) (f : Fields) : State :=
  let s1 := if f.imm0 then s.advancePc else s
  if f.imm1 then s1.advancePc else s1

@[simp] theorem State.afterOperands_mem (s : State) (f : Fields) : (s.afterOperands f).mem = s.mem := by
  unfold State.afterOperands; cases f.imm0 <;> cases f.imm1 <;> rfl

@[simp] theorem State.afterOperands_run (s : State) (f : Fields) : (s.afterOperands f).run = s.run := by
  unfold State.afterOperands; cases f.imm0 <;> cases f.imm1 <;> rfl

theorem State.afterOperands_reg (s : State) (f : Fields) (j : RegIdx) :
    (s.afterOperands f).reg j = if j = pcIndex then pcAfterOperands f s else s.reg j := by
  unfold State.afterOperands pcAfterOperands pcForOperand1
  by_cases h : j = pcIndex
  · subst h
    cases f.imm0 <;> cases f.imm1 <;> simp [State.advancePc_reg, State.pc_eq]
  · cases f.imm0 <;> cases f.imm1 <;> simp [State.advancePc_reg, h]

/-- Every immediate in the image: the operands and the state are the ones the rules give. -/
theorem resolveOperands_ok {s : State} {f : Fields} (h : OperandsInImage f s) :
    s.resolveOperands f = .ok (operand0 f s, operand1 f s, s.afterOperands f) := by
  obtain ⟨h0, h1⟩ := h
  simp only [State.resolveOperands, State.resolveOperand, operand0, operand1, State.afterOperands, pcForOperand1] at *
  cases hi0 : f.imm0 <;> cases hi1 : f.imm1 <;> simp only [hi0, hi1, if_true, if_false, Bool.false_eq_true,
    true_implies, false_implies, BitVec.add_zero] at *
  · by_cases hs : f.s1 = pcIndex
    · simp [hs, State.pc_eq]
    · simp [hs]
  · rw [immFetch_ok h1]
  · rw [immFetch_ok h0]
    by_cases hs : f.s1 = pcIndex
    · simp [hs, State.advancePc_reg]
    · simp [hs, State.advancePc_reg]
  · have h1' : s.advancePc.pc.toNat < s.advancePc.mem.size := by simpa using h1
    rw [immFetch_ok h0]
    simp only [immFetch_ok h1', State.advancePc_mem, State.advancePc_pc]

/-- Operand0's immediate missing: MEM_FAULT(IMM, pc). -/
theorem resolveOperands_missing0 {s : State} {f : Fields} (hi : f.imm0 = true) (h : s.mem.size ≤ s.pc.toNat) :
    s.resolveOperands f = .error (s.halt (.memFault .imm s.pc)) := by
  simp [State.resolveOperands, State.resolveOperand, hi, immFetch_error h]

/-- Operand1's immediate missing, and operand0's not: MEM_FAULT(IMM, pc), the pc past operand0's immediate. -/
theorem resolveOperands_missing1 {s : State} {f : Fields} (h0 : f.imm0 = true → s.pc.toNat < s.mem.size)
    (hi : f.imm1 = true) (h : s.mem.size ≤ (pcForOperand1 f s).toNat) :
    s.resolveOperands f =
      .error ((if f.imm0 then s.advancePc else s).halt (.memFault .imm (pcForOperand1 f s))) := by
  unfold pcForOperand1 at *
  simp only [State.resolveOperands, State.resolveOperand, hi, if_true]
  cases hi0 : f.imm0 <;> simp only [hi0, if_true, if_false, Bool.false_eq_true, true_implies, BitVec.add_zero] at *
  · rw [immFetch_error h]
  · have h' : s.advancePc.mem.size ≤ s.advancePc.pc.toNat := by simpa using h
    rw [immFetch_ok h0]
    simp only [immFetch_error h', State.advancePc_pc]

/-- Everything operand resolution can do: it moves only the pc and answers, or it ends in HALTED(MEM_FAULT(IMM, pc))
with nothing but the pc moved. -/
theorem resolveOperands_cases (s : State) (f : Fields) :
    (OperandsInImage f s ∧ s.resolveOperands f = .ok (operand0 f s, operand1 f s, s.afterOperands f)) ∨
    (¬ OperandsInImage f s ∧ ∃ s1 : State, s.resolveOperands f = .error (s1.halt (.memFault .imm s1.pc))
      ∧ s1.mem = s.mem ∧ s1.run = s.run ∧ s.mem.size ≤ s1.pc.toNat ∧ ∀ j, j ≠ pcIndex → s1.reg j = s.reg j) := by
  by_cases h : OperandsInImage f s
  · exact .inl ⟨h, resolveOperands_ok h⟩
  refine .inr ⟨h, ?_⟩
  by_cases h0 : f.imm0 = true → s.pc.toNat < s.mem.size
  · have h1 : f.imm1 = true ∧ s.mem.size ≤ (pcForOperand1 f s).toNat := by
      by_contra hc
      exact h ⟨h0, fun hi => by by_contra hlt; exact hc ⟨hi, by omega⟩⟩
    refine ⟨if f.imm0 then s.advancePc else s, ?_⟩
    rw [resolveOperands_missing1 h0 h1.1 h1.2]
    have hsz := h1.2
    unfold pcForOperand1 at hsz ⊢
    cases hi : f.imm0 <;> simp_all [State.advancePc_reg]
  · rw [Classical.not_imp, Nat.not_lt] at h0
    exact ⟨s, resolveOperands_missing0 h0.1 h0.2, rfl, rfl, h0.2, fun _ _ => rfl⟩

/-- What EXECUTE and WRITEBACK do for a completing operation. -/
theorem finish_ok {s : State} {f : Fields} {unit : ExecUnit} {a b r0 r1 : Word} {m : Memory}
    (h : unit s.mem a b = .ok r0 r1 m) :
    s.finish f unit a b = ({ s with mem := m } : State).writeBack f r0 r1 := by
  simp only [State.finish, h]

/-- Everything EXECUTE and WRITEBACK can do: write back over the operation's memory, or end in HALTED with nothing
written. -/
theorem finish_cases (s : State) (f : Fields) (unit : ExecUnit) (a b : Word) :
    (∃ r0 r1 m, unit s.mem a b = .ok r0 r1 m ∧
      s.finish f unit a b = ({ s with mem := m } : State).writeBack f r0 r1) ∨
    (∃ r, s.finish f unit a b = s.halt r ∧
      ((unit s.mem a b = .halt ∧ r = .hlt) ∨ (∃ op, unit s.mem a b = .illegal op ∧ r = .illegalOpcode op) ∨
        unit s.mem a b = .fault r)) := by
  unfold State.finish
  cases h : unit s.mem a b with
  | ok r0 r1 m => exact .inl ⟨r0, r1, m, rfl, rfl⟩
  | halt => exact .inr ⟨_, rfl, .inl ⟨rfl, rfl⟩⟩
  | illegal op => exact .inr ⟨_, rfl, .inr (.inl ⟨op, rfl, rfl⟩)⟩
  | fault r => exact .inr ⟨_, rfl, .inr (.inr rfl)⟩

/-- A skipped instruction changes nothing. -/
theorem execute_skipped {s : State} {f : Fields} (h : ¬ Executes f s) (unit : ExecUnit) : s.execute f unit = s := by
  rw [State.execute, if_pos ((skips_eq_true_iff f s).mpr h)]

/-- An executed instruction whose operands are in the image finishes on them. -/
theorem execute_finish {s : State} {f : Fields} (he : Executes f s) (ho : OperandsInImage f s) (unit : ExecUnit) :
    s.execute f unit = (s.afterOperands f).finish f unit (operand0 f s) (operand1 f s) := by
  have hs : ¬ s.skips f = true := by simp [(skips_eq_false_iff f s).mpr he]
  rw [State.execute, if_neg hs, resolveOperands_ok ho]

/-- Everything an instruction can do: be skipped, end in MEM_FAULT(IMM) with only the pc moved, or finish on its
operands. -/
theorem execute_cases (s : State) (f : Fields) (unit : ExecUnit) :
    (¬ Executes f s ∧ s.execute f unit = s) ∨
    (Executes f s ∧ ¬ OperandsInImage f s ∧ ∃ s1 : State, s.execute f unit = s1.halt (.memFault .imm s1.pc)
      ∧ s1.mem = s.mem ∧ s1.run = s.run ∧ s.mem.size ≤ s1.pc.toNat ∧ ∀ j, j ≠ pcIndex → s1.reg j = s.reg j) ∨
    (Executes f s ∧ OperandsInImage f s ∧
      s.execute f unit = (s.afterOperands f).finish f unit (operand0 f s) (operand1 f s)) := by
  by_cases he : Executes f s
  · rcases resolveOperands_cases s f with ⟨ho, -⟩ | ⟨ho, s1, h1, hrest⟩
    · exact .inr (.inr ⟨he, ho, execute_finish he ho unit⟩)
    · have hs : ¬ s.skips f = true := by simp [(skips_eq_false_iff f s).mpr he]
      exact .inr (.inl ⟨he, ho, s1, by rw [State.execute, if_neg hs, h1], hrest⟩)
  · exact .inl ⟨he, execute_skipped he unit⟩

/-- An operation that keeps the memory well formed and its capacity, whatever the operands. -/
def KeepsMemory (unit : ExecUnit) : Prop :=
  ∀ m a b r0 r1 m', unit m a b = .ok r0 r1 m' → m.wf = true → m'.wf = true ∧ m'.size = m.size

theorem keepsMemory_computing (results : Word → Word → Word × Word) : KeepsMemory (computing results) := by
  rintro m a b r0 r1 m' h hm
  cases h
  exact ⟨hm, rfl⟩

/-- What a store's operation answers. -/
theorem storing_eq (n : Nat) (kind : AccessKind) (m : Memory) (a b : Word) :
    storing (fun m => m.store n) kind m a b =
      if n * a.toNat + n ≤ m.capacity then .ok a b (m.write (n * a.toNat) n b.toNat) else .fault (.memFault kind a) := by
  simp only [storing, Memory.store_eq]
  split <;> simp_all

/-- What a load's operation answers. -/
theorem loading_eq (n : Nat) (kind : AccessKind) (m : Memory) (a b : Word) :
    loading (fun m => m.load n) kind m a b =
      if n * a.toNat + n ≤ m.capacity then .ok (BitVec.ofNat 32 (m.read (n * a.toNat) n)) b m
      else .fault (.memFault kind a) := by
  simp only [loading, Memory.load_eq]
  split <;> simp_all

theorem keepsMemory_storing (n : Nat) (kind : AccessKind) : KeepsMemory (storing (fun m => m.store n) kind) := by
  intro m a b r0 r1 m' h hm
  rw [storing_eq] at h
  split at h
  · cases h
    exact ⟨Memory.write_wf hm ‹_›, Memory.write_size _ _ _ _⟩
  · cases h

theorem keepsMemory_loading (n : Nat) (kind : AccessKind) : KeepsMemory (loading (fun m => m.load n) kind) := by
  intro m a b r0 r1 m' h hm
  rw [loading_eq] at h
  split at h
  · cases h
    exact ⟨hm, rfl⟩
  · cases h

/-- Executing over an operation that keeps the memory keeps it. -/
theorem execute_keepsMemory {unit : ExecUnit} (hu : KeepsMemory unit) {s : State} (f : Fields) (h : s.mem.wf = true) :
    (s.execute f unit).mem.wf = true ∧ (s.execute f unit).mem.size = s.mem.size := by
  rcases execute_cases s f unit with ⟨-, he⟩ | ⟨-, -, s1, he, hm, -⟩ | ⟨-, -, he⟩
  · rw [he]; exact ⟨h, rfl⟩
  · rw [he, State.halt_mem, hm]; exact ⟨h, rfl⟩
  · rw [he]
    rcases finish_cases (s.afterOperands f) f unit (operand0 f s) (operand1 f s) with ⟨r0, r1, m, hok, hf⟩ | ⟨r, hf, -⟩
    · rw [hf]
      simpa using hu _ _ _ _ _ _ hok (by simpa using h)
    · rw [hf]; simp [h]

end Sys2Proof.Machine
end

