-- ==== Sys2Proof/Laws/Step.lean ====
section
/-! SUPPORT. What FETCH and a step can do, said once. -/

namespace Sys2Proof.Machine

/-- FETCH inside the image. -/
theorem fetch_ok {s : State} (h : s.pc.toNat < s.mem.size) : s.fetch = .ok (wordAt s.mem s.pc.toNat, s.advancePc) := by
  rw [State.fetch, if_neg (by omega), ofNat_read_four]

/-- FETCH outside the image. -/
theorem fetch_error {s : State} (h : s.mem.size ≤ s.pc.toNat) : s.fetch = .error (s.halt (.pcEscape s.pc)) := by
  rw [State.fetch, if_pos h]

/-- Everything a step can do: a fault from HALTED, PC_ESCAPE, or the meaning of the fetched instruction. -/
theorem step_cases (s : State) :
    (∃ r, s.run = .halted r ∧ step s = .fault (.halted r)) ∨
    (s.run = .running ∧ s.mem.size ≤ s.pc.toNat ∧ step s = .next (s.halt (.pcEscape s.pc))) ∨
    (s.run = .running ∧ s.pc.toNat < s.mem.size ∧
      step s = exec (decode (wordAt s.mem s.pc.toNat)) s.advancePc) := by
  cases hr : s.run with
  | halted r => exact .inl ⟨r, rfl, by simp [step, hr]⟩
  | running =>
    rcases Nat.lt_or_ge s.pc.toNat s.mem.size with h | h
    · exact .inr (.inr ⟨rfl, h, by simp [step, hr, fetch_ok h]⟩)
    · exact .inr (.inl ⟨rfl, h, by simp [step, hr, fetch_error h]⟩)

/-- Every meaning answers a next state, by one operation of the Execution Unit that keeps the memory. -/
theorem exec_eq_execute (i : Instr) : ∃ unit, KeepsMemory unit ∧ ∀ s, exec i s = .next (s.execute i.fields unit) := by
  cases i with
  | div f =>
    refine ⟨divUnit, ?_, fun _ => rfl⟩
    intro m a b r0 r1 m' h hm
    unfold divUnit at h
    split at h <;> cases h
    exact ⟨hm, rfl⟩
  | hlt f => exact ⟨fun _ _ _ => .halt, fun _ _ _ _ _ _ h => (nomatch h), fun _ => rfl⟩
  | illegal29 f => exact ⟨fun _ _ _ => .illegal 29#6, fun _ _ _ _ _ _ h => (nomatch h), fun _ => rfl⟩
  | illegal30to31 op f => exact ⟨fun _ _ _ => .illegal op, fun _ _ _ _ _ _ h => (nomatch h), fun _ => rfl⟩
  | illegal32to63 op f => exact ⟨fun _ _ _ => .illegal op, fun _ _ _ _ _ _ h => (nomatch h), fun _ => rfl⟩
  | sto8 f => exact ⟨_, keepsMemory_storing 1 .sto8, fun _ => rfl⟩
  | sto16 f => exact ⟨_, keepsMemory_storing 2 .sto16, fun _ => rfl⟩
  | sto32 f => exact ⟨_, keepsMemory_storing 4 .sto32, fun _ => rfl⟩
  | lod8 f => exact ⟨_, keepsMemory_loading 1 .lod8, fun _ => rfl⟩
  | lod16 f => exact ⟨_, keepsMemory_loading 2 .lod16, fun _ => rfl⟩
  | lod32 f => exact ⟨_, keepsMemory_loading 4 .lod32, fun _ => rfl⟩
  | _ => exact ⟨_, keepsMemory_computing _, fun _ => rfl⟩

end Sys2Proof.Machine
end

