-- ==== Sys2Proof/Laws/Loader.lean ====
section
/-! SUPPORT. What loading a file and placing bytes leave in memory. -/

namespace Sys2Proof.Machine

/-- The cells of a file's bytes are in canonical form. -/
theorem canonicalCells_cellsOfBytes {hi lo o : Nat} {file : List Byte} (hlo : lo ≤ o) (hhi : o + file.length ≤ hi) :
    canonicalCells hi lo (cellsOfBytes o file) = true := by
  induction file generalizing o lo with
  | nil => rfl
  | cons b rest ih =>
    simp only [List.length_cons] at hhi
    rw [cellsOfBytes]
    split
    · exact ih (by omega) (by omega)
    · simp only [canonicalCells, Bool.and_eq_true, decide_eq_true_eq]
      exact ⟨⟨⟨hlo, by omega⟩, ‹_›⟩, ih (by omega) (by omega)⟩

/-- The cells of a file's bytes read as the file from `o` on, and as unlisted elsewhere. -/
theorem readCells_cellsOfBytes (o k : Nat) (file : List Byte) :
    readCells (cellsOfBytes o file) k = if o ≤ k then (file[k - o]?).getD unlistedByte else unlistedByte := by
  induction file generalizing o with
  | nil => simp [cellsOfBytes, readCells]
  | cons b rest ih =>
    rcases Nat.lt_trichotomy k o with h | rfl | h
    · rw [if_neg (by omega), cellsOfBytes]
      split
      · rw [ih, if_neg (by omega)]
      · rw [readCells, if_neg (by omega), ih, if_neg (by omega)]
    · rw [if_pos (Nat.le_refl _), cellsOfBytes]
      split
      · rw [ih, if_neg (by omega)]
        simp_all
      · simp [readCells]
    · obtain ⟨d, rfl⟩ : ∃ d, k = o + 1 + d := ⟨k - (o + 1), by omega⟩
      have e1 : o + 1 + d - (o + 1) = d := by omega
      have e2 : o + 1 + d - o = d + 1 := by omega
      rw [if_pos (by omega), cellsOfBytes, e2, List.getElem?_cons_succ]
      split
      · rw [ih, if_pos (by omega), e1]
      · rw [readCells, if_neg (by omega), ih, if_pos (by omega), e1]

/-- A file that fits is loaded into the reset state; one that does not is rejected. -/
theorem load_cases (size : Nat) (file : List Byte) :
    (file.length ≤ 4 * size ∧ load size file =
      .ok { regs := Vector.replicate 16 0#32, mem := Memory.mk size (cellsOfBytes 0 file), run := .running }) ∨
    (4 * size < file.length ∧ load size file = .error .tooLarge) := by
  by_cases h : file.length ≤ 4 * size
  · exact .inl ⟨h, by rw [load, if_pos h]⟩
  · exact .inr ⟨by omega, by rw [load, if_neg h]⟩

/-- The reset state is the one for an empty file. -/
theorem load_nil : load Config.resetMemorySize [] = .ok State.reset := rfl

/-- What placing bytes leaves in every byte of the image. -/
theorem Memory.readByte_place {m : Memory} {o p : Nat} {bs : List Byte} (h : m.wf = true) (hp : p < m.capacity) :
    (m.place o bs).readByte p = if o ≤ p then (bs[p - o]?).getD (m.readByte p) else m.readByte p := by
  induction bs generalizing m o with
  | nil => simp [Memory.place]
  | cons b rest ih =>
    rw [Memory.place]
    split
    · rw [ih (Memory.writeByte_wf b h ‹_›) (by simpa using hp)]
      rcases Nat.lt_trichotomy p o with hlt | rfl | hgt
      · rw [if_neg (by omega), if_neg (by omega), Memory.readByte_writeByte h, if_neg (by omega)]
      · rw [if_neg (by omega), if_pos (Nat.le_refl _), Memory.readByte_writeByte h]
        simp
      · obtain ⟨d, rfl⟩ : ∃ d, p = o + 1 + d := ⟨p - (o + 1), by omega⟩
        have e1 : o + 1 + d - (o + 1) = d := by omega
        have e2 : o + 1 + d - o = d + 1 := by omega
        rw [if_pos (by omega), if_pos (by omega), e1, e2, List.getElem?_cons_succ, Memory.readByte_writeByte h,
          if_neg (by omega)]
    · rw [if_neg (by omega)]

/-- The machine made fetchable: RUNNING, its pc in the image, memory as before. -/
theorem State.fetchable_spec {s : State} (h : s.mem.wf = true) :
    s.fetchable.mem = s.mem ∧ s.fetchable.run = .running ∧ s.fetchable.pc.toNat < s.mem.size := by
  have hsz := ((Memory.wf_iff _).mp h).1
  unfold State.fetchable
  dsimp only
  split
  · refine ⟨rfl, rfl, ?_⟩
    rw [State.pc, State.setReg_reg_same]
    simp
    omega
  · rename_i hp
    exact ⟨rfl, rfl, Nat.not_le.mp hp⟩

end Sys2Proof.Machine
end

