-- ==== Sys2Proof/Laws/PerInstr.lean ====
section
/-! SUPPORT. Per-instruction laws: one lemma per constructor of Instr. -/

namespace Sys2Proof.Laws.OpcodeAgrees

/-- The decoder's OPCODE_MAP and the encoder's opcode numbers agree on a well-formed instruction. -/
def Statement (i : Instr) : Prop := i.wf = true → instrOf i.opcode i.fields = i

theorem mov (f : Fields) : Statement (.mov f) := fun _ => rfl

theorem not (f : Fields) : Statement (.not f) := fun _ => rfl

theorem or (f : Fields) : Statement (.or f) := fun _ => rfl

theorem nor (f : Fields) : Statement (.nor f) := fun _ => rfl

theorem and (f : Fields) : Statement (.and f) := fun _ => rfl

theorem nand (f : Fields) : Statement (.nand f) := fun _ => rfl

theorem xor (f : Fields) : Statement (.xor f) := fun _ => rfl

theorem xnor (f : Fields) : Statement (.xnor f) := fun _ => rfl

theorem neg (f : Fields) : Statement (.neg f) := fun _ => rfl

theorem add (f : Fields) : Statement (.add f) := fun _ => rfl

theorem sub (f : Fields) : Statement (.sub f) := fun _ => rfl

theorem lt (f : Fields) : Statement (.lt f) := fun _ => rfl

theorem nlt (f : Fields) : Statement (.nlt f) := fun _ => rfl

theorem slt (f : Fields) : Statement (.slt f) := fun _ => rfl

theorem nslt (f : Fields) : Statement (.nslt f) := fun _ => rfl

theorem sl (f : Fields) : Statement (.sl f) := fun _ => rfl

theorem sr (f : Fields) : Statement (.sr f) := fun _ => rfl

theorem ssl (f : Fields) : Statement (.ssl f) := fun _ => rfl

theorem ssr (f : Fields) : Statement (.ssr f) := fun _ => rfl

theorem rep (f : Fields) : Statement (.rep f) := fun _ => rfl

theorem mul (f : Fields) : Statement (.mul f) := fun _ => rfl

theorem div (f : Fields) : Statement (.div f) := fun _ => rfl

theorem sto8 (f : Fields) : Statement (.sto8 f) := fun _ => rfl

theorem sto16 (f : Fields) : Statement (.sto16 f) := fun _ => rfl

theorem sto32 (f : Fields) : Statement (.sto32 f) := fun _ => rfl

theorem lod8 (f : Fields) : Statement (.lod8 f) := fun _ => rfl

theorem lod16 (f : Fields) : Statement (.lod16 f) := fun _ => rfl

theorem lod32 (f : Fields) : Statement (.lod32 f) := fun _ => rfl

theorem hlt (f : Fields) : Statement (.hlt f) := fun _ => rfl

theorem illegal29 (f : Fields) : Statement (.illegal29 f) := fun _ => rfl

theorem illegal30to31 (op : BitVec 6) (f : Fields) : Statement (.illegal30to31 op f) := by
  intro h
  rcases of_decide_eq_true h with rfl | rfl <;> rfl

theorem illegal32to63 (op : BitVec 6) (f : Fields) : Statement (.illegal32to63 op f) := by
  intro h
  have h32 : 32 ≤ op.toNat := of_decide_eq_true h
  have hmap : opcodeMap[op.toNat]? = none := List.getElem?_eq_none (by simp [opcodeMap]; omega)
  have h29 : op ≠ 29#6 := by rintro rfl; simp at h32
  simp only [Instr.opcode, Instr.fields, instrOf, hmap, h29, if_false, Nat.not_lt.mpr h32]

end Sys2Proof.Laws.OpcodeAgrees
end

