-- ==== Sys2Proof/Laws/Results.lean ====
section
/-! SUPPORT. What the shared result operations give: masks, the signed comparison, the halves of a 64-bit value. -/

namespace Sys2Proof.Machine

/-- A mask is all-ones or 0, by a proposition. -/
theorem maskOf_decide (p : Prop) [Decidable p] : maskOf (decide p) = if p then 0xFFFFFFFF#32 else 0#32 := by
  by_cases h : p <;> simp [maskOf, allOnes, h]

/-- The mask of the opposite. -/
theorem maskOf_not_decide (p : Prop) [Decidable p] : maskOf (!decide p) = if p then 0#32 else 0xFFFFFFFF#32 := by
  by_cases h : p <;> simp [maskOf, allOnes, h]

/-- A number below 2^31 and bit 31 share no bit: xor adds. -/
theorem two_pow_xor_of_lt {q : Nat} (hq : q < 2 ^ 31) : 2 ^ 31 ^^^ q = 2 ^ 31 + q := by
  have hor : 2 ^ 31 ^^^ q = 2 ^ 31 ||| q := by
    apply Nat.eq_of_testBit_eq
    intro i
    simp only [Nat.testBit_xor, Nat.testBit_or, Nat.testBit_two_pow]
    by_cases hi : 31 = i
    · subst hi
      simp [Nat.testBit_lt_two_pow hq]
    · simp [hi]
  rw [hor]
  simpa using (Nat.two_pow_add_eq_or_of_lt hq 1).symm

/-- Flipping bit 31 shifts the two's-complement reading up by 2^31. -/
theorem toNat_xor_sign (a : Word) : ((a ^^^ 0x80000000#32).toNat : Int) = a.toInt + 2 ^ 31 := by
  have ha := a.isLt
  rw [BitVec.toNat_xor, show (0x80000000#32 : Word).toNat = 2 ^ 31 from rfl, BitVec.toInt_eq_toNat_cond]
  by_cases h : a.toNat < 2 ^ 31
  · rw [Nat.xor_comm, two_pow_xor_of_lt h, if_pos (by omega)]
    push_cast
    omega
  · obtain ⟨q, hq⟩ : ∃ q, a.toNat = 2 ^ 31 + q := ⟨a.toNat - 2 ^ 31, by omega⟩
    have hlt : q < 2 ^ 31 := by omega
    rw [hq, ← two_pow_xor_of_lt hlt, Nat.xor_comm, ← Nat.xor_assoc, Nat.xor_self, Nat.zero_xor,
      two_pow_xor_of_lt hlt, if_neg (by omega)]
    push_cast
    omega

/-- The comparison with bit 31 flipped is the signed one (spec/42_arith_compare.md R88). -/
theorem signedLess_eq (a b : Word) : signedLess a b = decide (a.toInt < b.toInt) := by
  have ha := toNat_xor_sign a
  have hb := toNat_xor_sign b
  simp only [signedLess, unsignedLess, decide_eq_decide]
  omega

/-- The halves of a 64-bit value. -/
theorem halves_eq (v : BitVec 64) : halves v = (lowWord v.toNat, highWord v.toNat) := by
  unfold halves lowWord highWord
  congr 1
  all_goals (apply BitVec.eq_of_toNat_eq; simp [BitVec.extractLsb', Nat.shiftRight_eq_div_pow])

end Sys2Proof.Machine
end

