-- ==== Sys2Proof/Machine/Assembly.lean ====
section
/-! DEFINITION. The assembler notation and the pseudo-instructions of spec/30_encoding.md R57 and R58, as data: one
value per line, and the words it assembles to. They carry no semantics beyond that expansion (decision D20). -/

namespace Sys2Proof.Machine

/-- A source as written: a register, or an immediate value (R57 `src`). -/
inductive Source where
  | reg (r : RegIdx)
  | imm (v : Word)
  deriving DecidableEq, Repr

/-- A condition as written: `(rN)` or `(!rN)` (R57 `cond`). -/
structure Cond where
  invert : Bool
  reg : RegIdx
  deriving DecidableEq, Repr

/-- One line (R57). An omitted condition or destination is none; an omitted source is r0. -/
structure AsmLine where
  opcode : BitVec 6
  cond : Option Cond := none
  dst0 : Option RegIdx := none
  dst1 : Option RegIdx := none
  src0 : Source := .reg 0
  src1 : Source := .reg 0
  deriving DecidableEq, Repr

/-- The register field of a source: 0 for an immediate (R57). -/
def Source.field : Source → RegIdx
  | .reg r => r
  | .imm _ => 0

/-- The immediate words of a source: one for an immediate, none for a register. -/
def Source.words : Source → List Word
  | .reg _ => []
  | .imm v => [v]

/-- The source is an immediate. -/
def Source.isImm : Source → Bool
  | .reg _ => false
  | .imm _ => true

/-- The fields of a line (R57): no condition gives ce = ci = cr = 0, and `_` gives field 0 with write-enable 0. -/
def AsmLine.fields (l : AsmLine) : Fields where
  ce := l.cond.isSome
  ci := (l.cond.map Cond.invert).getD false
  cr := (l.cond.map Cond.reg).getD 0
  d0 := l.dst0.getD 0
  d1 := l.dst1.getD 0
  s0 := l.src0.field
  s1 := l.src1.field
  we0 := l.dst0.isSome
  we1 := l.dst1.isSome
  imm0 := l.src0.isImm
  imm1 := l.src1.isImm

/-- The words a line assembles to: the instruction word, then operand0's immediate, then operand1's (R57). -/
def assemble (l : AsmLine) : List Word :=
  encodeWord l.opcode l.fields :: (l.src0.words ++ l.src1.words)

/-- An immediate value as written: 0 to 2^32 − 1, or −2^31 to −1 for that value plus 2^32 (R57 `value`). -/
def immediateValue (v : Int) : Option Word :=
  if 0 ≤ v ∧ v < 2 ^ 32 then some (BitVec.ofInt 32 v)
  else if -(2 ^ 31) ≤ v ∧ v < 0 then some (BitVec.ofInt 32 v)
  else none

/-- `NOP` = `MOV _, _, r0, r0` (R58). -/
def asmNop : AsmLine := { opcode := 0#6 }

/-- `LI rd, #v` = `MOV rd, _, #v` (R58). -/
def asmLi (rd : RegIdx) (v : Word) : AsmLine := { opcode := 0#6, dst0 := some rd, src0 := .imm v }

/-- `JMP #t` = `MOV pc, _, #t` (R58). -/
def asmJmpTo (t : Word) : AsmLine := { opcode := 0#6, dst0 := some pcIndex, src0 := .imm t }

/-- `JMP rs` = `MOV pc, _, rs, r0` (R58). -/
def asmJmpReg (rs : RegIdx) : AsmLine := { opcode := 0#6, dst0 := some pcIndex, src0 := .reg rs }

/-- `CLR rd` = `XOR rd, _, rd, rd` (R58). -/
def asmClr (rd : RegIdx) : AsmLine := { opcode := 6#6, dst0 := some rd, src0 := .reg rd, src1 := .reg rd }

/-- `DONE` = `HLT` (R58). -/
def asmDone : AsmLine := { opcode := 28#6 }

end Sys2Proof.Machine
end

