-- ==== Sys2Proof/Certificates/Slice0/Obligations.lean ====
section
/-! DEFINITION. The statements for the provers. In the statements about one instruction, s is the state after FETCH, and
`CompletesWith`, `CompletesStoring` and `HaltsWith` (Sys2Proof/Safety.lean) have the frame inside: which registers, bytes
and run state change and which do not. That result1 stays in a register both destinations name, that a write to register
15 is a jump and what a read of it gives are the spec's decisions D10 and D11, and operand0 before operand1 is D12. -/

open Sys2Proof Sys2Proof.Machine

/-- Words of spec/95_test_vectors.md (V-DEC, V-ASM, P2, V-DIV-6, V-MEM-3, V-MEM-4), and one shift by the encoding formula of
spec/30_encoding.md R45, decode to what the spec lists. -/
def Obligations.SampleWordsDecode : Prop :=
  decode 0x2402301C#32 = .add (Fields.mk false false 0 2 3 0 1 true true false false) ∧
  decode 0x0001234C#32 = .mov (Fields.mk false false 0 1 2 3 4 true true false false) ∧
  decode 0x18040448#32 = .xor (Fields.mk false false 0 4 0 4 4 true false false false) ∧
  decode 0x28010109#32 = .sub (Fields.mk false false 0 1 0 1 0 true false false true) ∧
  decode 0x3C01234C#32 = .sl (Fields.mk false false 0 1 2 3 4 true true false false) ∧
  decode 0x5401000B#32 = .div (Fields.mk false false 0 1 0 0 0 true false true true) ∧
  decode 0x5C000003#32 = .sto16 (Fields.mk false false 0 0 0 0 0 false false true true) ∧
  decode 0x6C010F08#32 = .lod32 (Fields.mk false false 0 1 0 15 0 true false false false) ∧
  decode 0x73200000#32 = .hlt (Fields.mk true true 2 0 0 0 0 false false false false) ∧
  decode 0x9ABCDEF1#32 = .illegal32to63 38#6 (Fields.mk true false 11 12 13 14 15 false false false true) ∧
  decode 0x74000000#32 = .illegal29 (Fields.mk false false 0 0 0 0 0 false false false false)

/-- No bit of an encoding is dropped (spec/30_encoding.md R45, R46, R52). -/
def Obligations.DecodeOfEncodeIsTheInstruction : Prop :=
  ∀ i : Instr, i.wf = true → decode (encode i) = i

/-- Every word is an instruction, and no two words are the same one (spec/30_encoding.md R46, R55). -/
def Obligations.EncodeOfDecodeIsTheWord : Prop :=
  ∀ w : Word, (decode w).wf = true ∧ encode (decode w) = w

/-- R46: the decoder is total and reads each field from its bits. -/
def Obligations.DecoderReadsEveryField : Prop :=
  ∀ w : Word, (decode w).opcode = w.extractLsb 31 26 ∧
    (decode w).fields.ce = w.getLsbD 25 ∧ (decode w).fields.ci = w.getLsbD 24 ∧
    (decode w).fields.cr.val = (w.extractLsb 23 20).toNat ∧ (decode w).fields.d0.val = (w.extractLsb 19 16).toNat ∧
    (decode w).fields.d1.val = (w.extractLsb 15 12).toNat ∧ (decode w).fields.s0.val = (w.extractLsb 11 8).toNat ∧
    (decode w).fields.s1.val = (w.extractLsb 7 4).toNat ∧
    (decode w).fields.we0 = w.getLsbD 3 ∧ (decode w).fields.we1 = w.getLsbD 2 ∧
    (decode w).fields.imm0 = w.getLsbD 1 ∧ (decode w).fields.imm1 = w.getLsbD 0

/-- The words whose op is 29–63 (spec/30_encoding.md R54). That executing one raises ILLEGAL_OPCODE is IllegalOpcodesHalt. -/
def Obligations.UnrecognizedWordsKeepTheirOpcode : Prop :=
  ∀ w : Word,
    (0x74000000 ≤ w.toNat →
      (w.toNat / 2 ^ 26 = 29 ∧ decode w = .illegal29 (fieldsOf w)) ∨
      ((w.toNat / 2 ^ 26 = 30 ∨ w.toNat / 2 ^ 26 = 31) ∧
        decode w = .illegal30to31 (BitVec.ofNat 6 (w.toNat / 2 ^ 26)) (fieldsOf w)) ∨
      (32 ≤ w.toNat / 2 ^ 26 ∧ decode w = .illegal32to63 (BitVec.ofNat 6 (w.toNat / 2 ^ 26)) (fieldsOf w))) ∧
    (w.toNat < 0x74000000 → ∀ (op : BitVec 6) (f : Fields),
      decode w ≠ .illegal29 f ∧ decode w ≠ .illegal30to31 op f ∧ decode w ≠ .illegal32to63 op f)

/-- The byte order of an instruction word (spec/20_memory.md R29) does not change what is decoded. -/
def Obligations.TableWordsReachTheDecoder : Prop :=
  ∀ w : Nat, w < 2 ^ 32 → decodeTableWord 32 w = some (decode (BitVec.ofNat 32 w))

/-- spec/30_encoding.md R57. The notation is the spec's decision D20. -/
def Obligations.AssembledLineDecodesToItsFields : Prop :=
  ∀ l : AsmLine, ∃ w, assemble l = w :: (l.src0.words ++ l.src1.words) ∧ decode w = instrOf l.opcode l.fields ∧
    (l.src0.words ++ l.src1.words).length = l.fields.imm0.toNat + l.fields.imm1.toNat

/-- FETCH and DECODE (spec/40_execution_cycle.md R60, R61). The +1 mod 2^32 is the spec's decision D5. -/
def Obligations.StepRunsTheDecodedInstruction : Prop :=
  ∀ (s : State) (i : Instr), s.run = .running → s.pc.toNat < s.mem.size → decode (wordAt s.mem s.pc.toNat) = i →
    i.wf = true ∧ ∃ s1 : State, step s = exec i s1 ∧ s1.mem = s.mem ∧ s1.run = s.run ∧
      ∀ j, s1.reg j = if j = pcIndex then s.pc + 1#32 else s.reg j

/-- PC_ESCAPE (spec/60_exceptions.md R109), the spec's decision D6. -/
def Obligations.PcOutsideTheImageEndsTheRun : Prop :=
  ∀ s : State, s.run = .running → s.mem.size ≤ s.pc.toNat →
    ∃ t, step s = .next t ∧ t.run = .halted (.pcEscape s.pc) ∧ t.succeeded ∧ t.regs = s.regs ∧ t.mem = s.mem

/-- R23. That the model answers a fault there is log entry 2; this statement does not rest on it. -/
def Obligations.HaltedIsTerminal : Prop :=
  ∀ (s : State) (r : HaltReason), s.run = .halted r →
    (∀ t, step s ≠ .next t) ∧ ∀ k, runFor k s = .ended (Observation.mk r s.regs s.mem)

/-- "From RUNNING, a step is always enabled" (spec/40_execution_cycle.md R59); a step is a total function from a RUNNING state to a state (R73). -/
def Obligations.StepFromRunningAlwaysAnswers : Prop :=
  ∀ s : State, s.run = .running → ∃ t, step s = .next t

/-- R63 (and T7 of spec/95_test_vectors.md), for every instruction, HLT and the unrecognized opcodes included. -/
def Obligations.SkippedInstructionOnlyAdvancesPcByOne : Prop :=
  (∀ (i : Instr) (s : State), ¬ Executes i.fields s → exec i s = .next s) ∧
  ∀ s : State, s.run = .running → s.pc.toNat < s.mem.size → ¬ Executes (fieldsOf (fetchedWord s)) s.advancePc →
    ∃ t, step s = .next t ∧ t.mem = s.mem ∧ t.run = .running ∧
      ∀ j, t.reg j = if j = pcIndex then s.pc + 1#32 else s.reg j

/-- ImmFetch past the image (spec/40_execution_cycle.md R66), the spec's decisions D7, D12, D16 and D18. -/
def Obligations.MissingImmediateHaltsWithMemFault : Prop :=
  ∀ (i : Instr) (s : State), Executes i.fields s →
    (i.fields.imm0 = true → s.mem.size ≤ s.pc.toNat → exec i s = .next (s.halt (.memFault .imm s.pc))) ∧
    ((i.fields.imm0 = true → s.pc.toNat < s.mem.size) → i.fields.imm1 = true →
      s.mem.size ≤ (pcForOperand1 i.fields s).toNat →
      ∃ t, exec i s = .next t ∧ t.run = .halted (.memFault .imm (pcForOperand1 i.fields s)) ∧ t.mem = s.mem ∧
        ∀ j, t.reg j = if j = pcIndex then pcForOperand1 i.fields s else s.reg j)

/-- R68. When both enables name one register the later write, result1, stays (R69, decision D10). -/
def Obligations.WriteBackFollowsTheEnables : Prop :=
  ∀ (f : Fields) (s : State) (unit : ExecUnit) (a b : Word),
    (∀ r0 r1 m, unit s.mem a b = .ok r0 r1 m → ∀ j, (s.finish f unit a b).reg j =
      if f.we1 = true ∧ j = f.d1 then r1 else if f.we0 = true ∧ j = f.d0 then r0 else s.reg j) ∧
    ((unit s.mem a b = .halt ∨ (∃ op, unit s.mem a b = .illegal op) ∨ (∃ r, unit s.mem a b = .fault r)) →
      ∀ j, (s.finish f unit a b).reg j = s.reg j)

/-- R75. With d0 = 15 this is the jump of spec/40_execution_cycle.md R70. -/
def Obligations.MovCompletes : Prop :=
  ∀ (f : Fields) (s : State), Executes f s → OperandsInImage f s →
    CompletesWith (.mov f) s (operand0 f s) (operand1 f s) ∧ EncodedAt (.mov f) 0x00000000#32

/-- R76, with ~v = 0xFFFFFFFF − v (spec/00_scope.md R6). -/
def Obligations.NotCompletes : Prop :=
  ∀ (f : Fields) (s : State), Executes f s → OperandsInImage f s →
    CompletesWith (.not f) s 
      (BitVec.ofNat 32 (0xFFFFFFFF - (operand0 f s).toNat)) (BitVec.ofNat 32 (0xFFFFFFFF - (operand1 f s).toNat))  ∧ EncodedAt (.not f) 0x04000000#32

/-- spec/41_move_logic.md R77–R82. Result1 = 0 is the spec's decision D9 (log entry 4). -/
def Obligations.BitwiseOperationsComplete : Prop :=
  ∀ (f : Fields) (s : State), Executes f s → OperandsInImage f s →
    ∃ rOr rNor rAnd rNand rXor rXnor : Word,
      (∀ k, k < 32 →
        rOr.getLsbD k = ((operand0 f s).getLsbD k || (operand1 f s).getLsbD k) ∧
        rNor.getLsbD k = !((operand0 f s).getLsbD k || (operand1 f s).getLsbD k) ∧
        rAnd.getLsbD k = ((operand0 f s).getLsbD k && (operand1 f s).getLsbD k) ∧
        rNand.getLsbD k = !((operand0 f s).getLsbD k && (operand1 f s).getLsbD k) ∧
        rXor.getLsbD k = ((operand0 f s).getLsbD k != (operand1 f s).getLsbD k) ∧
        rXnor.getLsbD k = ((operand0 f s).getLsbD k == (operand1 f s).getLsbD k)) ∧
      CompletesWith (.or f) s rOr 0#32 ∧ EncodedAt (.or f) 0x08000000#32 ∧
      CompletesWith (.nor f) s rNor 0#32 ∧ EncodedAt (.nor f) 0x0C000000#32 ∧
      CompletesWith (.and f) s rAnd 0#32 ∧ EncodedAt (.and f) 0x10000000#32 ∧
      CompletesWith (.nand f) s rNand 0#32 ∧ EncodedAt (.nand f) 0x14000000#32 ∧
      CompletesWith (.xor f) s rXor 0#32 ∧ EncodedAt (.xor f) 0x18000000#32 ∧
      CompletesWith (.xnor f) s rXnor 0#32 ∧ EncodedAt (.xnor f) 0x1C000000#32

/-- spec/42_arith_compare.md R83. Result1 = 0 is the spec's decision D9 (log entry 4). -/
def Obligations.NegCompletes : Prop :=
  ∀ (f : Fields) (s : State), Executes f s → OperandsInImage f s →
    CompletesWith (.neg f) s (BitVec.ofNat 32 ((2 ^ 32 - (operand0 f s).toNat) % 2 ^ 32)) 0#32 ∧ EncodedAt (.neg f) 0x20000000#32

/-- R84. -/
def Obligations.AddCompletesWithCarry : Prop :=
  ∀ (f : Fields) (s : State), Executes f s → OperandsInImage f s →
    CompletesWith (.add f) s (BitVec.ofNat 32 (((operand0 f s).toNat + (operand1 f s).toNat) % 2 ^ 32))
      (if (operand0 f s).toNat + (operand1 f s).toNat ≥ 2 ^ 32 then 1#32 else 0#32) ∧
    EncodedAt (.add f) 0x24000000#32

/-- R85. -/
def Obligations.SubCompletesWithBorrow : Prop :=
  ∀ (f : Fields) (s : State), Executes f s → OperandsInImage f s →
    CompletesWith (.sub f) s (BitVec.ofInt 32 (((operand0 f s).toNat : Int) - ((operand1 f s).toNat : Int)))
      (if (operand0 f s).toNat < (operand1 f s).toNat then 0xFFFFFFFF#32 else 0#32) ∧
    EncodedAt (.sub f) 0x28000000#32

/-- spec/42_arith_compare.md R86, R87. Result1 = 0 is the spec's decision D9 (log entry 4). -/
def Obligations.UnsignedComparisonsComplete : Prop :=
  ∀ (f : Fields) (s : State), Executes f s → OperandsInImage f s →
    CompletesWith (.lt f) s (if (operand0 f s).toNat < (operand1 f s).toNat then 0xFFFFFFFF#32 else 0#32) 0#32 ∧
    EncodedAt (.lt f) 0x2C000000#32 ∧
    CompletesWith (.nlt f) s (if (operand0 f s).toNat ≥ (operand1 f s).toNat then 0xFFFFFFFF#32 else 0#32) 0#32 ∧
    EncodedAt (.nlt f) 0x30000000#32

/-- spec/42_arith_compare.md R88, R89. Result1 = 0 is the spec's decision D9 (log entry 4). -/
def Obligations.SignedComparisonsComplete : Prop :=
  ∀ (f : Fields) (s : State), Executes f s → OperandsInImage f s →
    CompletesWith (.slt f) s (if (operand0 f s).toInt < (operand1 f s).toInt then 0xFFFFFFFF#32 else 0#32) 0#32 ∧
    EncodedAt (.slt f) 0x34000000#32 ∧
    CompletesWith (.nslt f) s (if (operand0 f s).toInt ≥ (operand1 f s).toInt then 0xFFFFFFFF#32 else 0#32) 0#32 ∧
    EncodedAt (.nslt f) 0x38000000#32

/-- R90. -/
def Obligations.SlCompletes : Prop :=
  ∀ (f : Fields) (s : State), Executes f s → OperandsInImage f s →
    CompletesWith (.sl f) s
      (lowWord ((operand0 f s).toNat * 2 ^ ((operand1 f s).toNat % 256) % 2 ^ 64))
      (highWord ((operand0 f s).toNat * 2 ^ ((operand1 f s).toNat % 256) % 2 ^ 64)) ∧
    EncodedAt (.sl f) 0x3C000000#32

/-- R91. -/
def Obligations.SrCompletes : Prop :=
  ∀ (f : Fields) (s : State), Executes f s → OperandsInImage f s →
    CompletesWith (.sr f) s
      (lowWord ((operand0 f s).toNat / 2 ^ ((operand1 f s).toNat % 256)))
      (highWord ((operand0 f s).toNat / 2 ^ ((operand1 f s).toNat % 256))) ∧
    EncodedAt (.sr f) 0x40000000#32

/-- R92. -/
def Obligations.SslCompletes : Prop :=
  ∀ (f : Fields) (s : State), Executes f s → OperandsInImage f s →
    CompletesWith (.ssl f) s
      (lowWord (signExtended (operand0 f s) * 2 ^ ((operand1 f s).toNat % 256) % 2 ^ 64))
      (highWord (signExtended (operand0 f s) * 2 ^ ((operand1 f s).toNat % 256) % 2 ^ 64)) ∧
    EncodedAt (.ssl f) 0x44000000#32

/-- R93. `/` on Int rounds toward −∞ for a positive divisor. -/
def Obligations.SsrCompletes : Prop :=
  ∀ (f : Fields) (s : State), Executes f s → OperandsInImage f s →
    CompletesWith (.ssr f) s
      (lowWord (((operand0 f s).toInt / 2 ^ ((operand1 f s).toNat % 256) % 2 ^ 64).toNat))
      (highWord (((operand0 f s).toInt / 2 ^ ((operand1 f s).toNat % 256) % 2 ^ 64).toNat)) ∧
    EncodedAt (.ssr f) 0x48000000#32

/-- spec/44_muldiv.md R94. Result1 = 0 is the spec's decision D9 (log entry 4). -/
def Obligations.RepCompletes : Prop :=
  ∀ (f : Fields) (s : State), Executes f s → OperandsInImage f s →
    CompletesWith (.rep f) s
      (if operand0 f s = 0#32 then 0xFFFFFFFF#32 else if operand0 f s = 1#32 then 1#32 else 0#32) 0#32 ∧
    EncodedAt (.rep f) 0x4C000000#32

/-- R95. -/
def Obligations.MulCompletes : Prop :=
  ∀ (f : Fields) (s : State), Executes f s → OperandsInImage f s →
    ∃ r0 r1 : Word, CompletesWith (.mul f) s r0 r1 ∧
      r0.toNat + 2 ^ 32 * r1.toNat = (operand0 f s).toNat * (operand1 f s).toNat ∧
      EncodedAt (.mul f) 0x50000000#32

/-- spec/44_muldiv.md R96, the path on which DIV completes. -/
def Obligations.DivCompletesForNonzeroDivisor : Prop :=
  ∀ (f : Fields) (s : State), Executes f s → OperandsInImage f s → operand1 f s ≠ 0#32 →
    ∃ r q : Word, CompletesWith (.div f) s r q ∧ r.toNat < (operand1 f s).toNat ∧
      (operand0 f s).toNat = q.toNat * (operand1 f s).toNat + r.toNat ∧
      EncodedAt (.div f) 0x54000000#32

/-- spec/60_exceptions.md R108, the spec's decision D8. -/
def Obligations.DivByZeroHalts : Prop :=
  ∀ (f : Fields) (s : State), Executes f s → OperandsInImage f s → operand1 f s = 0#32 →
    HaltsWith (.div f) s (.divByZero (operand0 f s)) ∧ (HaltReason.divByZero (operand0 f s)).isNormal = false

/-- spec/45_load_store.md R97. MEM_FAULT is the spec's decision D7. The premise is that the memory is in canonical form. -/
def Obligations.Sto8CompletesOrFaults : Prop :=
  ∀ (f : Fields) (s : State), s.Inv → Executes f s → OperandsInImage f s →
    (1 * (operand0 f s).toNat + 1 ≤ 4 * s.mem.size →
      CompletesStoring (.sto8 f) s 1 (operand0 f s) (operand1 f s)) ∧
    (4 * s.mem.size < 1 * (operand0 f s).toNat + 1 →
      HaltsWith (.sto8 f) s (.memFault .sto8 (operand0 f s))) ∧
    EncodedAt (.sto8 f) 0x58000000#32

/-- spec/45_load_store.md R98. MEM_FAULT is the spec's decision D7. The premise is that the memory is in canonical form. -/
def Obligations.Sto16CompletesOrFaults : Prop :=
  ∀ (f : Fields) (s : State), s.Inv → Executes f s → OperandsInImage f s →
    (2 * (operand0 f s).toNat + 2 ≤ 4 * s.mem.size →
      CompletesStoring (.sto16 f) s 2 (operand0 f s) (operand1 f s)) ∧
    (4 * s.mem.size < 2 * (operand0 f s).toNat + 2 →
      HaltsWith (.sto16 f) s (.memFault .sto16 (operand0 f s))) ∧
    EncodedAt (.sto16 f) 0x5C000000#32

/-- spec/45_load_store.md R99. MEM_FAULT is the spec's decision D7. The premise is that the memory is in canonical form. -/
def Obligations.Sto32CompletesOrFaults : Prop :=
  ∀ (f : Fields) (s : State), s.Inv → Executes f s → OperandsInImage f s →
    (4 * (operand0 f s).toNat + 4 ≤ 4 * s.mem.size →
      CompletesStoring (.sto32 f) s 4 (operand0 f s) (operand1 f s)) ∧
    (4 * s.mem.size < 4 * (operand0 f s).toNat + 4 →
      HaltsWith (.sto32 f) s (.memFault .sto32 (operand0 f s))) ∧
    EncodedAt (.sto32 f) 0x60000000#32

/-- spec/45_load_store.md R100–R102. MEM_FAULT and zero extension are the spec's decisions D7 and D14. -/
def Obligations.LoadsCompleteOrFault : Prop :=
  ∀ (f : Fields) (s : State), Executes f s → OperandsInImage f s →
    ((operand0 f s).toNat + 1 ≤ 4 * s.mem.size →
      CompletesWith (.lod8 f) s (BitVec.ofNat 32 (s.mem.readByte (operand0 f s).toNat).toNat) (operand1 f s)) ∧
    (4 * s.mem.size < (operand0 f s).toNat + 1 → HaltsWith (.lod8 f) s (.memFault .lod8 (operand0 f s))) ∧
    (2 * (operand0 f s).toNat + 2 ≤ 4 * s.mem.size →
      CompletesWith (.lod16 f) s
        (BitVec.ofNat 32 ((s.mem.readByte (2 * (operand0 f s).toNat)).toNat
          + 256 * (s.mem.readByte (2 * (operand0 f s).toNat + 1)).toNat)) (operand1 f s)) ∧
    (4 * s.mem.size < 2 * (operand0 f s).toNat + 2 → HaltsWith (.lod16 f) s (.memFault .lod16 (operand0 f s))) ∧
    ((operand0 f s).toNat < s.mem.size →
      CompletesWith (.lod32 f) s (wordAt s.mem (operand0 f s).toNat) (operand1 f s)) ∧
    (s.mem.size ≤ (operand0 f s).toNat → HaltsWith (.lod32 f) s (.memFault .lod32 (operand0 f s))) ∧
    EncodedAt (.lod8 f) 0x64000000#32 ∧ EncodedAt (.lod16 f) 0x68000000#32 ∧ EncodedAt (.lod32 f) 0x6C000000#32

/-- spec/46_control.md R103. That immediates are consumed first is the spec's decision D16. -/
def Obligations.HltHalts : Prop :=
  ∀ (f : Fields) (s : State), Executes f s → OperandsInImage f s →
    HaltsWith (.hlt f) s .hlt ∧ HaltReason.hlt.isNormal = true ∧ EncodedAt (.hlt f) 0x70000000#32

/-- spec/46_control.md R104. Detection at EXECUTE, after the operands, is the spec's decision D16. -/
def Obligations.IllegalOpcodesHalt : Prop :=
  ∀ (f : Fields) (s : State), Executes f s → OperandsInImage f s →
    HaltsWith (.illegal29 f) s (.illegalOpcode 29#6) ∧
    ∀ op : BitVec 6, (HaltReason.illegalOpcode op).isNormal = false ∧
      HaltsWith (.illegal30to31 op f) s (.illegalOpcode op) ∧ HaltsWith (.illegal32to63 op f) s (.illegalOpcode op)

/-- R35. -/
def Obligations.Store32ThenLoad32ReturnsTheValue : Prop :=
  ∀ (m : Memory) (x v : Word), m.wf = true → x.toNat < m.size →
    ∃ m', m.store32 x v = some m' ∧ m'.readByte (4 * x.toNat) = v.extractLsb' 0 8 ∧
      m'.readByte (4 * x.toNat + 1) = v.extractLsb' 8 8 ∧ m'.readByte (4 * x.toNat + 2) = v.extractLsb' 16 8 ∧
      m'.readByte (4 * x.toNat + 3) = v.extractLsb' 24 8 ∧
      (∀ o, (o < 4 * x.toNat ∨ 4 * x.toNat + 4 ≤ o) → m'.readByte o = m.readByte o) ∧ m'.load32 x = some v

/-- R33; the last clause, the zero extension of load8, is R30 by the spec's decision D14 (log entry 4). T5 of spec/95_test_vectors.md. -/
def Obligations.Store8WritesOneByte : Prop :=
  ∀ (m : Memory) (a v : Word), m.wf = true → a.toNat < 4 * m.size →
    ∃ m', m.store8 a v = some m' ∧ m'.readByte a.toNat = v.extractLsb' 0 8 ∧
      (∀ o, o ≠ a.toNat → m'.readByte o = m.readByte o) ∧ m'.load8 a = some ((v.extractLsb' 0 8).setWidth 32)

/-- R32. -/
def Obligations.Load32IsLittleEndian : Prop :=
  ∀ (m : Memory) (a : Word), a.toNat < m.size →
    ∃ v, m.load32 a = some v ∧ v.extractLsb' 0 8 = m.readByte (4 * a.toNat) ∧
      v.extractLsb' 8 8 = m.readByte (4 * a.toNat + 1) ∧ v.extractLsb' 16 8 = m.readByte (4 * a.toNat + 2) ∧
      v.extractLsb' 24 8 = m.readByte (4 * a.toNat + 3)

/-- The worked case of spec/20_memory.md R39, which the spec marks as derived. -/
def Obligations.MixedWidthAccessesSeeTheSameBytes : Prop :=
  ∃ m, (Memory.mk 4 []).store32 2#32 0x11223344#32 = some m ∧ m.load8 8#32 = some 0x44#32 ∧
    m.load8 11#32 = some 0x11#32 ∧ m.load16 4#32 = some 0x3344#32 ∧ m.load16 5#32 = some 0x1122#32

/-- Self-modifying code (spec/20_memory.md R43, which the spec marks as derived). -/
def Obligations.StoredWordIsFetchedNext : Prop :=
  ∀ (f : Fields) (s t : State), s.Inv → s.run = .running → Executes f s → OperandsInImage f s →
    (operand0 f s).toNat < s.mem.size → exec (.sto32 f) s = .next t → t.pc = operand0 f s →
    step t = exec (decode (operand1 f s)) t.advancePc

/-- Log entry 1: State.reset's MEMORY_SIZE is the model's choice. -/
def Obligations.ResetSatisfiesInvariant : Prop :=
  State.reset.Inv

/-- "Its capacity does not change during a run" (spec/20_memory.md R25), and no byte outside the image is ever written (R36). -/
def Obligations.StepKeepsInvariant : Prop :=
  ∀ s t : State, s.Inv → step s = .next t → t.Inv ∧ t.mem.size = s.mem.size

/-- spec/10_state.md R14 and R19, over every instruction of the table; of a pc outside the image
`Obligations.PcOutsideTheImageEndsTheRun` says more. -/
def Obligations.OnlyEnabledDestinationsAndThePcChange : Prop :=
  ∀ s t : State, s.run = .running → step s = .next t → ∀ j : RegIdx, j ≠ pcIndex →
    ¬ ((fieldsOf (fetchedWord s)).we0 = true ∧ j = (fieldsOf (fetchedWord s)).d0) →
    ¬ ((fieldsOf (fetchedWord s)).we1 = true ∧ j = (fieldsOf (fetchedWord s)).d1) → t.reg j = s.reg j

/-- "Nothing else reads or writes memory during a run" (spec/20_memory.md R26). -/
def Obligations.OnlyStoresChangeMemory : Prop :=
  ∀ s t : State, s.Inv → s.run = .running → step s = .next t → ∀ o : Nat, t.mem.readByte o ≠ s.mem.readByte o →
    StoreCovers (fetchedOpcode s) (fetchedOperand0 s) o

/-- Write-back to index 15 is the only control transfer (spec/10_state.md R18, spec/40_execution_cycle.md R73). -/
def Obligations.OnlyWriteBackToFifteenJumps : Prop :=
  ∀ s t : State, s.run = .running → step s = .next t →
    ¬ ((fieldsOf (fetchedWord s)).we0 = true ∧ (fieldsOf (fetchedWord s)).d0 = pcIndex) →
    ¬ ((fieldsOf (fetchedWord s)).we1 = true ∧ (fieldsOf (fetchedWord s)).d1 = pcIndex) →
    ∃ k : Nat, k ≤ 1 + (fieldsOf (fetchedWord s)).imm0.toNat + (fieldsOf (fetchedWord s)).imm1.toNat ∧
      t.pc = s.pc + BitVec.ofNat 32 k

/-- The table of spec/60_exceptions.md R105, the spec's decision D17. -/
def Obligations.HaltReasonsHaveTheirCauses : Prop :=
  ∀ (s t : State) (r : HaltReason), s.run = .running → step s = .next t → t.run = .halted r →
    HaltCause s r ∧ ((∀ p, r ≠ .pcEscape p) → Executes (fieldsOf (fetchedWord s)) s.advancePc)

/-- spec/60_exceptions.md R111, the spec's decision D17. -/
def Obligations.HaltsArePrecise : Prop :=
  ∀ (s t : State) (r : HaltReason), s.run = .running → step s = .next t → t.run = .halted r →
    t.mem = s.mem ∧ t.pc = haltPc s r ∧ ∀ j, j ≠ pcIndex → t.reg j = s.reg j

/-- R121. -/
def Obligations.LoaderPlacesTheFile : Prop :=
  ∀ (n : Nat) (file : List Byte), file.length ≤ 4 * n →
    ∃ s, load n file = .ok s ∧ s.mem.size = n ∧ (∀ k (h : k < file.length), s.mem.readByte k = file[k]) ∧
      ∀ k, file.length ≤ k → s.mem.readByte k = 0#8

/-- spec/70_reset_and_hazards.md R119, R120, R122 and R130. The zero registers are the spec's decision D13. -/
def Obligations.LoadedStateIsReadyToRun : Prop :=
  ∀ (n : Nat) (file : List Byte), 1 ≤ n → n ≤ 2 ^ 32 →
    (4 * n < file.length → load n file = .error .tooLarge) ∧
    (file.length ≤ 4 * n → ∃ s, load n file = .ok s ∧ s.Inv ∧ s.run = .running ∧ ∀ j, s.reg j = 0#32)

/-- spec/70_reset_and_hazards.md R119–R122, with no program loaded (log entry 3). The zero registers are the spec's decision D13. -/
def Obligations.ResetLeavesTheSpecsValues : Prop :=
  (∀ j, State.reset.reg j = 0#32) ∧ State.reset.pc = 0#32 ∧ (∀ o, State.reset.mem.readByte o = 0#8) ∧
    State.reset.run = .running

/-- spec/70_reset_and_hazards.md R133; running out of steps is no end of a run (decision D22). -/
def Obligations.MoreFuelKeepsTheResult : Prop :=
  ∀ s : State, (∀ k k' o, k ≤ k' → runFor k s = .ended o → runFor k' s = .ended o) ∧
    ∀ k u, runFor k s ≠ .stuck u

/-- "A run succeeds iff the reason is HLT or PC_ESCAPE" (spec/70_reset_and_hazards.md R133). -/
def Obligations.SuccessIsExactlyANormalReason : Prop :=
  ∀ s : State, s.succeeded ↔ (s.run = .halted .hlt ∨ ∃ p, s.run = .halted (.pcEscape p))

/-- The model's own operation (log entries 3 and 5): it stands for the loader placing a program. -/
def Obligations.PlacedWordIsTheNextInstruction : Prop :=
  ∀ (s : State) (w : Nat), s.Inv → w < 2 ^ 32 →
    step (s.withFetchWord 32 w) = exec (decode (BitVec.ofNat 32 w)) (s.withFetchWord 32 w).advancePc
end

