-- ==== Sys2Proof/Tests/Slice0.lean ====
section
/-! SUPPORT. The model's own tests. Expected values are those of spec/95_test_vectors.md (the V- and P- names below) or of
the encoding formula of spec/30_encoding.md R45; none is the model's own answer. -/

namespace Sys2Proof.Tests

open Sys2Proof Sys2Proof.Machine

/-! ### WellFormed: each check refuses an ill-formed term -/

/-- Fields that are all 0. -/
def noFields : Fields := Fields.mk false false 0 0 0 0 0 false false false false

theorem test_wf_illegal30to31_refuses : (Instr.illegal30to31 29#6 noFields).wf = false := by decide
theorem test_wf_illegal30to31_accepts : (Instr.illegal30to31 31#6 noFields).wf = true := by decide
theorem test_wf_illegal32to63_refuses : (Instr.illegal32to63 31#6 noFields).wf = false := by decide
theorem test_wf_illegal32to63_accepts : (Instr.illegal32to63 32#6 noFields).wf = true := by decide

/-! ### Decode: one word of each instruction, from the encoding `op·2^26 | fields` -/

/-- The fields of the words below, whose low 26 bits are 0x1234C: d0 = 1, d1 = 2, s0 = 3, s1 = 4, both write-enables
(V-ASM-6). -/
def fields1234 : Fields := Fields.mk false false 0 1 2 3 4 true true false false

theorem test_decode_move_logic :
    decode 0x0001234C#32 = .mov fields1234 ∧
    decode 0x0401234C#32 = .not fields1234 ∧
    decode 0x0801234C#32 = .or fields1234 ∧
    decode 0x0C01234C#32 = .nor fields1234 ∧
    decode 0x1001234C#32 = .and fields1234 ∧
    decode 0x1401234C#32 = .nand fields1234 ∧
    decode 0x1801234C#32 = .xor fields1234 ∧
    decode 0x1C01234C#32 = .xnor fields1234 := by decide

theorem test_decode_arith_compare :
    decode 0x2001234C#32 = .neg fields1234 ∧
    decode 0x2401234C#32 = .add fields1234 ∧
    decode 0x2801234C#32 = .sub fields1234 ∧
    decode 0x2C01234C#32 = .lt fields1234 ∧
    decode 0x3001234C#32 = .nlt fields1234 ∧
    decode 0x3401234C#32 = .slt fields1234 ∧
    decode 0x3801234C#32 = .nslt fields1234 := by decide

theorem test_decode_shift :
    decode 0x3C01234C#32 = .sl fields1234 ∧
    decode 0x4001234C#32 = .sr fields1234 ∧
    decode 0x4401234C#32 = .ssl fields1234 ∧
    decode 0x4801234C#32 = .ssr fields1234 := by decide

theorem test_decode_muldiv :
    decode 0x4C01234C#32 = .rep fields1234 ∧
    decode 0x5001234C#32 = .mul fields1234 ∧
    decode 0x5401234C#32 = .div fields1234 := by decide

theorem test_decode_load_store :
    decode 0x5801234C#32 = .sto8 fields1234 ∧
    decode 0x5C01234C#32 = .sto16 fields1234 ∧
    decode 0x6001234C#32 = .sto32 fields1234 ∧
    decode 0x6401234C#32 = .lod8 fields1234 ∧
    decode 0x6801234C#32 = .lod16 fields1234 ∧
    decode 0x6C01234C#32 = .lod32 fields1234 := by decide

theorem test_decode_control :
    decode 0x7001234C#32 = .hlt fields1234 := by decide

/-- The three rows of unrecognized opcodes: 29, 30–31 and 32–63. -/
theorem test_decode_illegal :
    decode 0x7401234C#32 = .illegal29 fields1234 ∧ decode 0x7801234C#32 = .illegal30to31 30#6 fields1234 ∧
    decode 0x7C01234C#32 = .illegal30to31 31#6 fields1234 ∧ decode 0x8001234C#32 = .illegal32to63 32#6 fields1234 ∧
    decode 0xFC01234C#32 = .illegal32to63 63#6 fields1234 := by decide

/-- V-DEC-1: every field distinct. -/
theorem test_decode_vdec1 :
    decode 0x9ABCDEF1#32 = .illegal32to63 38#6 (Fields.mk true false 11 12 13 14 15 false false false true) := by decide

/-- V-DEC-4: every bit set. -/
theorem test_decode_vdec4 :
    decode 0xFFFFFFFF#32 = .illegal32to63 63#6 (Fields.mk true true 15 15 15 15 15 true true true true) := by decide

/-- V-DEC-5: `(r1) ADD r2, _, r2, #1`. -/
theorem test_decode_vdec5 : decode 0x26120209#32 = .add (Fields.mk true false 1 2 0 2 0 true false false true) := by decide

theorem test_encode_vdec2 : encode (.add (Fields.mk false false 0 2 3 0 1 true true false false)) = 0x2402301C#32 := by
  decide

/-- Fewer than four bytes are no instruction word. -/
theorem test_decodeBytes_truncated : decodeBytes [0x70#8, 0x00#8, 0x00#8] = .error .truncated := by decide

theorem test_decodeTableWord_hlt : decodeTableWord 32 0x70000000 = some (.hlt noFields) := by decide

/-! ### Assembler notation (V-ASM-1 to V-ASM-8) -/

theorem test_asm_pseudo :
    assemble asmNop = [0#32] ∧ assemble (asmLi 3 7#32) = [0x0003000A#32, 7#32] ∧
    assemble (asmJmpTo 9#32) = [0x000F000A#32, 9#32] ∧ assemble (asmJmpReg 5) = [0x000F0508#32] ∧
    assemble (asmClr 4) = [0x18040448#32] ∧ assemble asmDone = [0x70000000#32] := by decide

theorem test_asm_lines :
    assemble (AsmLine.mk 28#6 (some (Cond.mk true 2)) none none (.reg 0) (.reg 0)) = [0x73200000#32] ∧
    assemble (AsmLine.mk 0#6 none (some 14) (some 15) (.imm 10#32) (.imm 12#32)) = [0x000EF00F#32, 10#32, 12#32] ∧
    assemble (AsmLine.mk 9#6 (some (Cond.mk false 1)) (some 2) none (.reg 2) (.imm 1#32)) = [0x26120209#32, 1#32] := by
  decide

/-- R57's `value`: a negative number stands for itself plus 2^32, and nothing outside its range is a value. -/
theorem test_asm_values :
    immediateValue (-1) = some 0xFFFFFFFF#32 ∧ immediateValue (-2147483648) = some 0x80000000#32 ∧
    immediateValue (-2147483649) = none ∧ immediateValue 4294967296 = none := by decide

/-! ### One step -/

/-- A machine of `size` words with the given words loaded from word 0. -/
def machine (size : Nat) (words : List Word) : State where
  regs := Vector.replicate 16 0#32
  mem := Memory.mk size (cellsOfBytes 0 (bytesOfWords words))
  run := .running

/-- The state after one step, or the state itself if there is none. -/
def after (s : State) : State :=
  match step s with
  | .next t => t
  | .fault _ => s
  | .refused _ => s

/-- (x[1], x[2]) after one step of `op r1, r2, #a, #b`, if the machine is still RUNNING. -/
def results (op : Nat) (a b : Word) : Option (Word × Word) :=
  let t := after (machine 4 [BitVec.ofNat 32 (op * 2 ^ 26 + 0x0001200F), a, b])
  match t.run with
  | .running => some (t.reg 1, t.reg 2)
  | .halted _ => none

/-- The halt reason and the pc after one step. -/
def ending (s : State) : RunState × Word := ((after s).run, (after s).pc)

theorem test_mov :
    results 0 0xF0F0F0F0#32 0xFF00FF00#32 = some (0xF0F0F0F0#32, 0xFF00FF00#32) := by decide

theorem test_not :
    results 1 0xF0F0F0F0#32 0xFF00FF00#32 = some (0x0F0F0F0F#32, 0x00FF00FF#32) ∧
    results 1 0xF0F0F0F0#32 0#32 = some (0x0F0F0F0F#32, 0xFFFFFFFF#32) := by decide

theorem test_or :
    results 2 0xF0F0F0F0#32 0xFF00FF00#32 = some (0xFFF0FFF0#32, 0#32) := by decide

theorem test_nor :
    results 3 0xF0F0F0F0#32 0xFF00FF00#32 = some (0x000F000F#32, 0#32) := by decide

theorem test_and :
    results 4 0xF0F0F0F0#32 0xFF00FF00#32 = some (0xF000F000#32, 0#32) := by decide

theorem test_nand :
    results 5 0xF0F0F0F0#32 0xFF00FF00#32 = some (0x0FFF0FFF#32, 0#32) := by decide

theorem test_xor :
    results 6 0xF0F0F0F0#32 0xFF00FF00#32 = some (0x0FF00FF0#32, 0#32) := by decide

theorem test_xnor :
    results 7 0xF0F0F0F0#32 0xFF00FF00#32 = some (0xF00FF00F#32, 0#32) := by decide

theorem test_neg :
    results 8 0x80000000#32 0#32 = some (0x80000000#32, 0#32) ∧
    results 8 5#32 9#32 = some (0xFFFFFFFB#32, 0#32) := by decide

theorem test_add :
    results 9 0xFFFFFFFF#32 0xFFFFFFFF#32 = some (0xFFFFFFFE#32, 1#32) ∧
    results 9 0x7FFFFFFF#32 1#32 = some (0x80000000#32, 0#32) := by decide

theorem test_sub :
    results 10 3#32 5#32 = some (0xFFFFFFFE#32, 0xFFFFFFFF#32) ∧
    results 10 5#32 5#32 = some (0#32, 0#32) := by decide

theorem test_lt :
    results 11 1#32 0x80000000#32 = some (0xFFFFFFFF#32, 0#32) ∧
    results 11 5#32 5#32 = some (0#32, 0#32) := by decide

theorem test_nlt :
    results 12 3#32 5#32 = some (0#32, 0#32) ∧
    results 12 5#32 5#32 = some (0xFFFFFFFF#32, 0#32) := by decide

theorem test_slt :
    results 13 1#32 0x80000000#32 = some (0#32, 0#32) ∧
    results 13 0x80000000#32 0x7FFFFFFF#32 = some (0xFFFFFFFF#32, 0#32) := by decide

theorem test_nslt :
    results 14 0xFFFFFFFF#32 0#32 = some (0#32, 0#32) ∧
    results 14 4#32 4#32 = some (0xFFFFFFFF#32, 0#32) := by decide

theorem test_sl :
    results 15 0x80000001#32 31#32 = some (0x80000000#32, 0x40000000#32) ∧
    results 15 0x80000001#32 0x101#32 = some (2#32, 1#32) := by decide

theorem test_sr :
    results 16 0x80000001#32 1#32 = some (0x40000000#32, 0#32) ∧
    results 16 0x80000001#32 200#32 = some (0#32, 0#32) := by decide

theorem test_ssl :
    results 17 0x80000001#32 32#32 = some (0#32, 0x80000001#32) ∧
    results 17 0x80000001#32 0#32 = some (0x80000001#32, 0xFFFFFFFF#32) := by decide

theorem test_ssr :
    results 18 0x80000000#32 255#32 = some (0xFFFFFFFF#32, 0xFFFFFFFF#32) ∧
    results 18 0x7FFFFFFF#32 30#32 = some (1#32, 0#32) := by decide

theorem test_rep :
    results 19 0#32 3#32 = some (0xFFFFFFFF#32, 0#32) ∧
    results 19 1#32 3#32 = some (1#32, 0#32) := by decide

theorem test_mul :
    results 20 0xFFFFFFFF#32 0xFFFFFFFF#32 = some (1#32, 0xFFFFFFFE#32) := by decide

theorem test_div :
    results 21 0xFFFFFFFF#32 0x10#32 = some (0xF#32, 0x0FFFFFFF#32) := by decide

/-- V-NEG-5: the unused immediate operand1 is still consumed. -/
theorem test_neg_consumes_immediate :
    (after ((machine 4 [0x20010209#32, 0x999#32]).setReg 2 5#32)).reg 1 = 0xFFFFFFFB#32 ∧
    (after ((machine 4 [0x20010209#32, 0x999#32]).setReg 2 5#32)).pc = 2#32 := by decide

/-- V-DIV-6. -/
theorem test_div_by_zero :
    ending (machine 4 [0x5401000B#32, 9#32, 0#32]) = (.halted (.divByZero 9#32), 3#32) := by decide

/-! Loads and stores, on a machine whose word 3 is not part of the program. -/

/-- P3, word 10 (`STO8 _, _, #a, #0xABCD`, here with a = 13): the low byte, and no other. -/
theorem test_sto8 :
    (after (machine 4 [0x58000003#32, 13#32, 0xABCD#32, 0x11223344#32])).mem.readByte 13 = 0xCD#8 ∧
    (after (machine 4 [0x58000003#32, 13#32, 0xABCD#32, 0x11223344#32])).mem.readByte 14 = 0x22#8 := by decide

/-- V-MEM-2. -/
theorem test_sto8_fault :
    ending (machine 3 [0x58000003#32, 12#32, 0x55#32]) = (.halted (.memFault .sto8 12#32), 3#32) := by decide

/-- R98's example, at halfword 7. -/
theorem test_sto16 :
    wordAt (after (machine 4 [0x5C000003#32, 7#32, 0xDEADBEEF#32, 0x11223344#32])).mem 3 = 0xBEEF3344#32 := by decide

/-- V-MEM-3. -/
theorem test_sto16_fault :
    ending (machine 3 [0x5C000003#32, 6#32, 1#32]) = (.halted (.memFault .sto16 6#32), 3#32) := by decide

/-- R99's example, at word 3: the least significant byte lowest. -/
theorem test_sto32 :
    (after (machine 4 [0x60000003#32, 3#32, 0x11223344#32])).mem.readByte 12 = 0x44#8 ∧
    (after (machine 4 [0x60000003#32, 3#32, 0x11223344#32])).mem.readByte 15 = 0x11#8 := by decide

/-- The word address is not reduced mod 2^32 (R28, N7): 0x40000001 does not reach byte 4. -/
theorem test_sto32_no_wrap :
    ending (machine 4 [0x60000003#32, 0x40000001#32, 1#32]) = (.halted (.memFault .sto32 0x40000001#32), 3#32) := by
  decide

/-- R100's example, at byte 12; result1 is operand1. -/
theorem test_lod8 :
    results 25 1#32 7#32 = some (0x20#32, 7#32) ∧
    (after (machine 4 [0x6401000A#32, 12#32, 0#32, 0xFFEEDDCC#32])).reg 1 = 0xCC#32 := by decide

/-- R101's example, at halfword 7: zero-extended. -/
theorem test_lod16 :
    (after (machine 4 [0x6801000A#32, 7#32, 0#32, 0xFFEEDDCC#32])).reg 1 = 0xFFEE#32 := by decide

/-- V-MEM-4: `LOD32 r1, _, pc` reads the word after it. -/
theorem test_lod32_pc : (after (machine 4 [0x6C010F08#32, 0xCAFEBABE#32])).reg 1 = 0xCAFEBABE#32 := by decide

/-- V-MEM-1. -/
theorem test_lod32_fault : ending (machine 2 [0x6C01000A#32, 2#32]) = (.halted (.memFault .lod32 2#32), 2#32) := by decide

/-! Conditions, write-back, the pc, halts. -/

/-- V-CND-1 and V-CND-2: `(!r2) MOV r1, _, #7` with x[2] = 0 and x[2] = 1. -/
theorem test_condition_inverted :
    (after (machine 4 [0x0321000A#32, 7#32])).reg 1 = 7#32 ∧
    after ((machine 4 [0x0321000A#32, 7#32]).setReg 2 1#32) = ((machine 4 [0x0321000A#32, 7#32]).setReg 2 1#32).advancePc := by
  decide

/-- V-CND-3 (skipped), V-CND-4 (cr = pc, read as 1) and V-CND-5 (ce = 0, ci = 1). -/
theorem test_condition :
    (after (machine 4 [0x0221000A#32, 7#32])).pc = 1#32 ∧ (after (machine 4 [0x02F1000A#32, 7#32])).reg 1 = 7#32 ∧
    (after ((machine 4 [0x0121000A#32, 7#32]).setReg 2 1#32)).reg 1 = 7#32 := by decide

/-- V-WB-3 and V-WB-4: result1 wins, in an ordinary register and in the pc. -/
theorem test_hazard :
    (after (machine 4 [0x0003300F#32, 1#32, 2#32])).reg 3 = 2#32 ∧
    (after (machine 4 [0x000FF00F#32, 2#32, 3#32])).pc = 3#32 := by decide

/-- P6, step 3: `MOV r6, r7, #9, pc` at word 4 gives x[6] = 9 and x[7] = 6. -/
theorem test_pc_as_operand1 :
    (after ((machine 8 [0#32, 0#32, 0#32, 0#32, 0x000670FE#32, 9#32]).setReg 15 4#32)).reg 6 = 9#32 ∧
    (after ((machine 8 [0#32, 0#32, 0#32, 0#32, 0x000670FE#32, 9#32]).setReg 15 4#32)).reg 7 = 6#32 := by decide

/-- V-PC-2, second step: a pc past the image is a normal end. -/
theorem test_pc_escape : ending ((machine 2 []).setReg 15 256#32) = (.halted (.pcEscape 256#32), 256#32) := by decide

/-- V-IMM-1 and V-IMM-2: a missing immediate, before the opcode is looked at. -/
theorem test_missing_immediate :
    ending (machine 1 [0x0001000A#32]) = (.halted (.memFault .imm 1#32), 1#32) ∧
    ending (machine 1 [0xA0000002#32]) = (.halted (.memFault .imm 1#32), 1#32) := by decide

/-- V-ILL-1, and opcodes of the other two rows. -/
theorem test_illegal :
    ending (machine 1 [0xFC000000#32]) = (.halted (.illegalOpcode 63#6), 1#32) ∧
    ending (machine 1 [0x74000000#32]) = (.halted (.illegalOpcode 29#6), 1#32) ∧
    ending (machine 1 [0x7C000000#32]) = (.halted (.illegalOpcode 31#6), 1#32) := by decide

/-- V-ILL-2: skipped, so no fault. -/
theorem test_illegal_skipped : ending (machine 2 [0xFE000000#32]) = (.running, 1#32) := by decide

/-- V-HLT-1: immediates consumed, no write-back. -/
theorem test_hlt :
    ending (machine 4 [0x7001000B#32, 5#32, 6#32]) = (.halted .hlt, 3#32) ∧
    (after (machine 4 [0x7001000B#32, 5#32, 6#32])).reg 1 = 0#32 := by decide

/-- No step is taken from HALTED. -/
theorem test_step_halted :
    (match step ((machine 4 []).halt .hlt) with
      | .next _ => false
      | .fault r => decide (r = .halted .hlt)
      | .refused _ => false) = true := by decide

/-- V-LDR-1: a file of 4·MS + 1 bytes is rejected; one of 4·MS bytes is not. -/
theorem test_loader :
    load 1 [1#8, 2#8, 3#8, 4#8, 5#8] = .error .tooLarge ∧
    (match load 1 [1#8, 2#8, 3#8, 4#8] with
      | .ok s => decide (wordAt s.mem 0 = 0x04030201#32)
      | .error _ => false) = true := by decide

/-- The word withFetchWord places in the reset machine is the one the next step runs (P1, word 4). -/
theorem test_withFetchWord :
    decode (wordAt (State.reset.withFetchWord 32 0x2402301C).mem 0) =
      .add (Fields.mk false false 0 2 3 0 1 true true false false) := by decide

/-! ### Witnesses: concrete inputs that meet each statement's hypotheses -/

/-- `MOV r1, r2, #5, #9` after FETCH, as (fields, state): it executes and both immediates are in the image, the second at
the last word. Meets the hypotheses of MovCompletes, NotCompletes, BitwiseOperationsComplete, NegCompletes,
AddCompletesWithCarry, SubCompletesWithBorrow, UnsignedComparisonsComplete, SignedComparisonsComplete, SlCompletes,
SrCompletes, SslCompletes, SsrCompletes, RepCompletes, MulCompletes, HltHalts and IllegalOpcodesHalt (they ask only
this), and of DivCompletesForNonzeroDivisor. -/
def immFields : Fields := Fields.mk false false 0 1 2 0 0 true true true true

/-- The state of `immFields` after FETCH. -/
def immState : State := (machine 3 [0x0001200F#32, 5#32, 9#32]).advancePc

theorem witness_executes_with_operands :
    Executes immFields immState ∧ OperandsInImage immFields immState ∧ immState.Inv ∧ operand0 immFields immState = 5#32 ∧
    operand1 immFields immState = 9#32 ∧ operand1 immFields immState ≠ 0#32 := by decide

/-- A conditional instruction that executes, and a source register 15 (R62, R71). -/
theorem witness_executes_conditional :
    Executes (Fields.mk true true 2 1 0 15 15 true false false false) immState ∧
    OperandsInImage (Fields.mk true true 2 1 0 15 15 true false false false) immState := by decide

theorem witness_DivByZeroHalts :
    Executes immFields (machine 3 [0x5401200F#32, 9#32, 0#32]).advancePc ∧
    OperandsInImage immFields (machine 3 [0x5401200F#32, 9#32, 0#32]).advancePc ∧
    operand1 immFields (machine 3 [0x5401200F#32, 9#32, 0#32]).advancePc = 0#32 := by decide

/-- Both clauses of Sto8CompletesOrFaults and LoadsCompleteOrFault (8 bits): the last byte, and the first one past it. -/
theorem witness_byte_bounds :
    (∃ s : State, s.Inv ∧ Executes immFields s ∧ OperandsInImage immFields s ∧
      1 * (operand0 immFields s).toNat + 1 = 4 * s.mem.size) ∧
    (∃ s : State, s.Inv ∧ Executes immFields s ∧ OperandsInImage immFields s ∧
      1 * (operand0 immFields s).toNat + 1 = 4 * s.mem.size + 1) :=
  ⟨⟨(machine 3 [0#32, 11#32, 9#32]).advancePc, by decide⟩, ⟨(machine 3 [0#32, 12#32, 9#32]).advancePc, by decide⟩⟩

/-- Both clauses of Sto16CompletesOrFaults and LoadsCompleteOrFault (16 bits). -/
theorem witness_halfword_bounds :
    (∃ s : State, s.Inv ∧ Executes immFields s ∧ OperandsInImage immFields s ∧
      2 * (operand0 immFields s).toNat + 2 = 4 * s.mem.size) ∧
    (∃ s : State, s.Inv ∧ Executes immFields s ∧ OperandsInImage immFields s ∧
      2 * (operand0 immFields s).toNat + 2 = 4 * s.mem.size + 2) :=
  ⟨⟨(machine 3 [0#32, 5#32, 9#32]).advancePc, by decide⟩, ⟨(machine 3 [0#32, 6#32, 9#32]).advancePc, by decide⟩⟩

/-- Both clauses of Sto32CompletesOrFaults and LoadsCompleteOrFault (32 bits). -/
theorem witness_word_bounds :
    (∃ s : State, s.Inv ∧ Executes immFields s ∧ OperandsInImage immFields s ∧
      4 * (operand0 immFields s).toNat + 4 = 4 * s.mem.size) ∧
    (∃ s : State, s.Inv ∧ Executes immFields s ∧ OperandsInImage immFields s ∧
      4 * (operand0 immFields s).toNat + 4 = 4 * s.mem.size + 4) :=
  ⟨⟨(machine 3 [0#32, 2#32, 9#32]).advancePc, by decide⟩, ⟨(machine 3 [0#32, 3#32, 9#32]).advancePc, by decide⟩⟩

/-- Two instructions with a check of their own, at the bounds of their rows. -/
theorem witness_DecodeOfEncodeIsTheInstruction :
    (Instr.illegal30to31 30#6 immFields).wf = true ∧ (Instr.illegal32to63 63#6 immFields).wf = true ∧
    (Instr.mov immFields).wf = true := by decide

/-- Both clauses, at the bound. -/
theorem witness_UnrecognizedWordsKeepTheirOpcode :
    0x74000000 ≤ (0x74000000#32).toNat ∧ (0x73FFFFFF#32).toNat < 0x74000000 := by decide

theorem witness_TableWordsReachTheDecoder : 0xFFFFFFFF < 2 ^ 32 := by decide

/-- The pc at the last word of the image. -/
theorem witness_StepRunsTheDecodedInstruction :
    (immState.advancePc).run = .running ∧ immState.advancePc.pc.toNat + 1 = immState.advancePc.mem.size ∧
    decode (wordAt immState.advancePc.mem immState.advancePc.pc.toNat) =
      .mov (Fields.mk false false 0 0 0 0 0 true false false true) := by decide

/-- The pc just past the image. Meets StepFromRunningAlwaysAnswers too. -/
theorem witness_PcOutsideTheImageEndsTheRun :
    ((machine 2 []).setReg 15 2#32).run = .running ∧
    ((machine 2 []).setReg 15 2#32).mem.size = ((machine 2 []).setReg 15 2#32).pc.toNat := by decide

theorem witness_HaltedIsTerminal : ((machine 2 []).halt (.divByZero 9#32)).run = .halted (.divByZero 9#32) := by decide

/-- Both clauses: an instruction whose condition fails, and a fetched one (V-ILL-2). -/
theorem witness_SkippedInstructionOnlyAdvancesPcByOne :
    ¬ Executes (Fields.mk true false 3 0 0 0 0 false false true true) immState ∧
    (machine 2 [0xFE000000#32]).run = .running ∧ (machine 2 [0xFE000000#32]).pc.toNat < (machine 2 [0xFE000000#32]).mem.size ∧
    ¬ Executes (fieldsOf (fetchedWord (machine 2 [0xFE000000#32]))) (machine 2 [0xFE000000#32]).advancePc := by decide

/-- Both clauses: operand0's word just past the image, and operand1's with operand0's the last word. -/
theorem witness_MissingImmediateHaltsWithMemFault :
    (Executes immFields (machine 1 [0x0001200F#32]).advancePc ∧
      (machine 1 [0x0001200F#32]).advancePc.mem.size ≤ (machine 1 [0x0001200F#32]).advancePc.pc.toNat) ∧
    (Executes immFields (machine 2 [0x0001200F#32]).advancePc ∧
      (machine 2 [0x0001200F#32]).advancePc.pc.toNat < (machine 2 [0x0001200F#32]).advancePc.mem.size ∧
      (machine 2 [0x0001200F#32]).advancePc.mem.size ≤
        (pcForOperand1 immFields (machine 2 [0x0001200F#32]).advancePc).toNat) := by decide

/-- All four clauses: an operation that completes, and one each that halts, is illegal and faults. -/
theorem witness_WriteBackFollowsTheEnables :
    computing addResults immState.mem 5#32 9#32 = .ok 14#32 0#32 immState.mem ∧
    (∃ u : ExecUnit, u immState.mem 5#32 9#32 = .halt) ∧
    (∃ u : ExecUnit, u immState.mem 5#32 9#32 = .illegal 29#6) ∧
    divUnit immState.mem 5#32 0#32 = .fault (.divByZero 5#32) :=
  ⟨rfl, ⟨fun _ _ _ => .halt, rfl⟩, ⟨fun _ _ _ => .illegal 29#6, rfl⟩, rfl⟩

/-- The last word and the last byte of a memory. Meets Store32ThenLoad32ReturnsTheValue, Store8WritesOneByte and
Load32IsLittleEndian. -/
theorem witness_memory_accesses :
    (machine 3 []).mem.wf = true ∧ (2#32).toNat + 1 = (machine 3 []).mem.size ∧
    (11#32).toNat + 1 = 4 * (machine 3 []).mem.size := by decide

/-- `STO32 _, _, r0, r1` at word 0 with x[0] = 1 stores to word 1, which is where the pc is after it. -/
theorem witness_StoredWordIsFetchedNext :
    ∃ (f : Fields) (s t : State), s.Inv ∧ s.run = .running ∧ Executes f s ∧ OperandsInImage f s ∧
      (operand0 f s).toNat < s.mem.size ∧ exec (.sto32 f) s = .next t ∧ t.pc = operand0 f s ∧
      operand1 f s = 0x70000000#32 :=
  ⟨Fields.mk false false 0 0 0 0 1 false false false false,
    (((machine 2 [0x60000010#32]).setReg 0 1#32).setReg 1 0x70000000#32).advancePc, _, by decide, rfl, by decide, by decide,
    by decide, rfl, by decide, by decide⟩

/-- A step from RUNNING that answers and does not halt, and changes memory. Meets StepKeepsInvariant,
OnlyEnabledDestinationsAndThePcChange (j = 3), OnlyStoresChangeMemory (o = 13) and OnlyWriteBackToFifteenJumps. -/
theorem witness_step_next :
    ∃ s t : State, s.Inv ∧ s.run = .running ∧ step s = .next t ∧ t.mem.readByte 13 ≠ s.mem.readByte 13 ∧
      (fieldsOf (fetchedWord s)).we0 = false ∧ (fieldsOf (fetchedWord s)).we1 = false :=
  ⟨machine 4 [0x58000003#32, 13#32, 0xABCD#32], _, by decide, rfl, rfl, by decide, by decide, by decide⟩

/-- A step that halts. Meets HaltReasonsHaveTheirCauses and HaltsArePrecise, with a reason that is not PC_ESCAPE. -/
theorem witness_step_halts :
    ∃ (s t : State) (r : HaltReason), s.run = .running ∧ step s = .next t ∧ t.run = .halted r ∧ r = .divByZero 9#32 :=
  ⟨machine 4 [0x5401000B#32, 9#32, 0#32], _, _, rfl, rfl, rfl, by decide⟩

/-- Files of just the capacity and of one byte more, in the smallest memory. Meets LoaderPlacesTheFile and both clauses of
LoadedStateIsReadyToRun. -/
theorem witness_loader :
    ([1#8, 0#8, 3#8, 4#8] : List Byte).length ≤ 4 * 1 ∧ 4 * 1 < ([1#8, 0#8, 3#8, 4#8, 5#8] : List Byte).length := by decide

/-- A run that ends within one step. -/
theorem witness_MoreFuelKeepsTheResult : ∃ o, 1 ≤ 2 ∧ runFor 1 (machine 1 [0x70000000#32]) = .ended o :=
  ⟨Observation.mk .hlt ((machine 1 [0x70000000#32]).advancePc.regs) (machine 1 [0x70000000#32]).mem, by decide, by decide⟩

theorem witness_PlacedWordIsTheNextInstruction : State.reset.Inv ∧ 0x2402301C < 2 ^ 32 := by decide

end Sys2Proof.Tests
end

section
/-! The scope family (spec/00_scope.md): the capacity that `State.reset` gives the machine is a legal MEMORY_SIZE. -/

namespace Sys2Proof.Machine

/-- Settles O42. `Memory.wf_iff` names the three parts: `Config.resetMemorySize` is within R4's two bounds, and no cell
is listed, so the empty list is in canonical form. The law `reset_mem_wf` has checked them. -/
theorem resetSatisfiesInvariant : Obligations.ResetSatisfiesInvariant :=
  reset_mem_wf

end Sys2Proof.Machine
end

section
/-! The state family (spec/10_state.md): which registers a step can change, and that HALTED is terminal. -/

namespace Sys2Proof.Machine

/-- The decoder hands every instruction the fields it was given, whichever row of the opcode table it takes. -/
theorem instrOf_fields (op : BitVec 6) (f : Fields) : (instrOf op f).fields = f := by
  have hmap : ∀ operation ∈ opcodeMap, (operation f).fields = f := by simp [opcodeMap, Instr.fields]
  unfold instrOf
  split
  case h_1 operation hop => exact hmap operation (List.mem_of_getElem? hop)
  case h_2 =>
    split
    · rfl
    · split <;> rfl

@[simp] theorem decode_fields (w : Word) : (decode w).fields = fieldsOf w := instrOf_fields _ _

/-! The frame of the registers, from write-back outward to the step. -/
section NotADestination

variable {f : Fields} {j : RegIdx}

theorem State.writeBack_reg_of_not_dest (h0 : ¬ (f.we0 = true ∧ j = f.d0)) (h1 : ¬ (f.we1 = true ∧ j = f.d1))
    (s : State) (r0 r1 : Word) : (s.writeBack f r0 r1).reg j = s.reg j := by
  rw [State.writeBack_reg, if_neg h1, if_neg h0]

/-- EXECUTE and WRITEBACK need no exception for the pc: the pc has already moved when they begin. -/
theorem finish_reg_of_not_dest (h0 : ¬ (f.we0 = true ∧ j = f.d0)) (h1 : ¬ (f.we1 = true ∧ j = f.d1))
    (s : State) (unit : ExecUnit) (a b : Word) : (s.finish f unit a b).reg j = s.reg j := by
  rcases finish_cases s f unit a b with ⟨r0, r1, m, -, hf⟩ | ⟨r, hf, -⟩
  · rw [hf, State.writeBack_reg_of_not_dest h0 h1, State.withMem_reg]
  · rw [hf, State.halt_reg]

theorem execute_reg_of_not_dest (hj : j ≠ pcIndex) (h0 : ¬ (f.we0 = true ∧ j = f.d0))
    (h1 : ¬ (f.we1 = true ∧ j = f.d1)) (s : State) (unit : ExecUnit) : (s.execute f unit).reg j = s.reg j := by
  rcases execute_cases s f unit with ⟨-, he⟩ | ⟨-, -, s1, he, -, -, -, hreg⟩ | ⟨-, -, he⟩
  · rw [he]
  · rw [he, State.halt_reg, hreg j hj]
  · rw [he, finish_reg_of_not_dest h0 h1, State.afterOperands_reg, if_neg hj]

end NotADestination

/-- Settles O44. A step that ends in PC_ESCAPE writes no register. Any other runs the fetched instruction, on the fields
of the fetched word and on a state where only the pc has moved, and `execute_reg_of_not_dest` is its frame. -/
theorem onlyEnabledDestinationsAndThePcChange : Obligations.OnlyEnabledDestinationsAndThePcChange := by
  intro s t hrun hstep j hj h0 h1
  rcases step_cases s with ⟨r, hr, -⟩ | ⟨-, -, hnext⟩ | ⟨-, -, hexec⟩
  · rw [hrun] at hr
    cases hr
  · rw [hnext] at hstep
    cases hstep
    exact State.halt_reg _ _ _
  · obtain ⟨unit, -, hunit⟩ := exec_eq_execute (decode (fetchedWord s))
    have ht : t = s.advancePc.execute (fieldsOf (fetchedWord s)) unit := by
      rw [hexec, ← fetchedWord, hunit, decode_fields] at hstep
      cases hstep
      rfl
    calc t.reg j = s.advancePc.reg j := by rw [ht, execute_reg_of_not_dest hj h0 h1]
      _ = s.reg j := by rw [State.advancePc_reg, if_neg hj]

section Halted

variable {s : State} {r : HaltReason}

theorem step_of_halted (h : s.run = .halted r) : step s = .fault (.halted r) := by
  rw [step, h]

theorem observe_of_halted (h : s.run = .halted r) : s.observe = some (Observation.mk r s.regs s.mem) := by
  rw [State.observe, h]

/-- A run from HALTED ends before its first step, so the number of steps allowed does not matter. -/
theorem runFor_of_halted (h : s.run = .halted r) (k : Nat) :
    runFor k s = .ended (Observation.mk r s.regs s.mem) := by
  cases k <;> rw [runFor, observe_of_halted h]

end Halted

/-- Settles O10. The model's step from HALTED is a fault, and a run looks at the run state before it steps. -/
theorem haltedIsTerminal : Obligations.HaltedIsTerminal := by
  intro s r h
  refine ⟨fun t ht => ?_, runFor_of_halted h⟩
  rw [step_of_halted h] at ht
  cases ht

end Sys2Proof.Machine
end

section
/-! The memory family (spec/20_memory.md): loads and stores byte by byte, the invariant, and which steps can change
memory. -/

namespace Sys2Proof.Machine

/-! ### Bytes of a word (R29) -/

/-- Byte `k` of a word, as a write computes it and as the rules slice it. -/
theorem ofNat_div_pow_eq_extract (v : Word) (k : Nat) :
    BitVec.ofNat 8 (v.toNat / 256 ^ k) = v.extractLsb' (8 * k) 8 := by
  rw [BitVec.extractLsb', Nat.shiftRight_eq_div_pow, Nat.pow_mul]

/-- A word is four bytes. -/
theorem ofNat_mod_four_bytes (v : Word) : BitVec.ofNat 32 (v.toNat % 256 ^ 4) = v := by
  rw [Nat.mod_eq_of_lt (by omega), BitVec.ofNat_toNat, BitVec.setWidth_eq]

/-- Byte `k` of a little-endian read is the byte at offset `k` of the access. -/
theorem Memory.read_div_pow_mod (m : Memory) {n k : Nat} (hk : k < n) (o : Nat) :
    m.read o n / 256 ^ k % 256 = (m.readByte (o + k)).toNat := by
  induction n generalizing k o with
  | zero => omega
  | succ n ih =>
    have hlt := (m.readByte o).isLt
    cases k with
    | zero => rw [Memory.read, pow_zero, Nat.div_one, Nat.add_mul_mod_self_left, Nat.mod_eq_of_lt hlt, Nat.add_zero]
    | succ k =>
      have hdiv : ((m.readByte o).toNat + 256 * m.read (o + 1) n) / 256 = m.read (o + 1) n := by omega
      rw [Memory.read, pow_succ', ← Nat.div_div_eq_div_mul, hdiv, ih (by omega), Nat.add_right_comm, Nat.add_assoc]

/-- The bytes of a word read from memory are the four bytes of memory. -/
theorem extract_ofNat_read_four (m : Memory) {k : Nat} (hk : k < 4) (o : Nat) :
    (BitVec.ofNat 32 (m.read o 4)).extractLsb' (8 * k) 8 = m.readByte (o + k) := by
  have hlt : m.read o 4 < 2 ^ 32 := m.read_lt o 4
  apply BitVec.eq_of_toNat_eq
  rw [← ofNat_div_pow_eq_extract, BitVec.toNat_ofNat, BitVec.toNat_ofNat, Nat.mod_eq_of_lt hlt]
  exact m.read_div_pow_mod hk o

/-! ### The memory unit -/

theorem Memory.capacity_eq (m : Memory) : m.capacity = 4 * m.size := rfl

theorem Memory.word_le_capacity {m : Memory} {a : Nat} (h : a < m.size) : 4 * a + 4 ≤ m.capacity := by
  rw [Memory.capacity_eq]
  omega

/-- Settles O39: an in-bounds load32 answers the little-endian read, whose bytes `extract_ofNat_read_four` gives. -/
theorem load32IsLittleEndian : Obligations.Load32IsLittleEndian := by
  intro m a ha
  refine ⟨BitVec.ofNat 32 (m.read (4 * a.toNat) 4), ?_, ?_, ?_, ?_, ?_⟩
  · rw [Memory.load32, Memory.load_eq, if_pos (Memory.word_le_capacity ha)]
  · exact extract_ofNat_read_four m (k := 0) (by decide) _
  · exact extract_ofNat_read_four m (k := 1) (by decide) _
  · exact extract_ofNat_read_four m (k := 2) (by decide) _
  · exact extract_ofNat_read_four m (k := 3) (by decide) _

/-- What a store in the image does, at any width: the bytes of the access are the value's low bytes, every other byte
is as before, and the load of that width returns the value cut to it. -/
theorem Memory.store_spec {m : Memory} {n : Nat} {a : Word} (h : m.wf = true) (hb : n * a.toNat + n ≤ m.capacity)
    (v : Word) : ∃ m', m.store n a v = some m' ∧
      (∀ k, k < n → m'.readByte (n * a.toNat + k) = v.extractLsb' (8 * k) 8) ∧
      (∀ o, o < n * a.toNat ∨ n * a.toNat + n ≤ o → m'.readByte o = m.readByte o) ∧
      m'.load n a = some (BitVec.ofNat 32 (v.toNat % 256 ^ n)) := by
  refine ⟨m.write (n * a.toNat) n v.toNat, by rw [Memory.store_eq, if_pos hb], fun k hk => ?_, fun o ho => ?_, ?_⟩
  · rw [Memory.readByte_write h hb, if_pos (by omega), Nat.add_sub_cancel_left, ofNat_div_pow_eq_extract]
  · rw [Memory.readByte_write h hb, if_neg (by omega)]
  · have hcap : (m.write (n * a.toNat) n v.toNat).capacity = m.capacity := by simp [Memory.capacity_eq]
    rw [Memory.load_eq, hcap, if_pos hb, Memory.read_write h hb]

/-- Settles O37: `Memory.store_spec` at width 4, where cutting a word to four bytes keeps it whole. -/
theorem store32ThenLoad32ReturnsTheValue : Obligations.Store32ThenLoad32ReturnsTheValue := by
  intro m x v hwf hx
  obtain ⟨m', hstore, hbytes, hother, hload⟩ := Memory.store_spec hwf (Memory.word_le_capacity hx) v
  exact ⟨m', hstore, hbytes 0 (by decide), hbytes 1 (by decide), hbytes 2 (by decide), hbytes 3 (by decide), hother,
    hload.trans (congrArg some (ofNat_mod_four_bytes v))⟩

/-- Settles O38: `Memory.store_spec` at width 1, where the value cut to one byte is that byte, zero-extended. -/
theorem store8WritesOneByte : Obligations.Store8WritesOneByte := by
  intro m a v hwf ha
  have hb : 1 * a.toNat + 1 ≤ m.capacity := by rw [Memory.capacity_eq]; omega
  obtain ⟨m', hstore, hbytes, hother, hload⟩ := Memory.store_spec hwf hb v
  have hbyte := hbytes 0 (by decide)
  rw [Nat.one_mul] at hbyte hother
  have hlow : BitVec.ofNat 32 (v.toNat % 256 ^ 1) = (v.extractLsb' 0 8).setWidth 32 := by
    apply BitVec.eq_of_toNat_eq
    simp
  exact ⟨m', hstore, hbyte, fun o ho => hother o (by omega), hload.trans (congrArg some hlow)⟩

/-- Settles O40: the accesses of R39's example, evaluated on the memory that the store leaves. -/
theorem mixedWidthAccessesSeeTheSameBytes : Obligations.MixedWidthAccessesSeeTheSameBytes :=
  ⟨(Memory.mk 4 []).write 8 4 0x11223344, by decide⟩

/-! ### Steps -/

/-- A step that answers a next state ends in PC_ESCAPE, or runs the fetched instruction. -/
theorem step_next_cases {s t : State} (h : step s = .next t) :
    t = s.halt (.pcEscape s.pc) ∨ exec (decode (fetchedWord s)) s.advancePc = .next t := by
  rcases step_cases s with ⟨r, -, hfault⟩ | ⟨-, -, hnext⟩ | ⟨-, -, hexec⟩
  · rw [hfault] at h
    cases h
  · rw [hnext] at h
    cases h
    exact .inl rfl
  · exact .inr (hexec.symm.trans h)

/-- From RUNNING with the pc in the image, a step runs the fetched instruction. -/
theorem step_of_running {s : State} (hrun : s.run = .running) (hpc : s.pc.toNat < s.mem.size) :
    step s = exec (decode (fetchedWord s)) s.advancePc := by
  rcases step_cases s with ⟨r, hr, -⟩ | ⟨-, hout, -⟩ | ⟨-, -, hexec⟩
  · rw [hrun] at hr
    cases hr
  · exact absurd hpc (Nat.not_lt.mpr hout)
  · exact hexec

/-- Settles O43: FETCH moves only the pc, and every instruction runs an operation that keeps the memory. -/
theorem stepKeepsInvariant : Obligations.StepKeepsInvariant := by
  intro s t hinv hstep
  rcases step_next_cases hstep with rfl | hexec
  · exact ⟨hinv, rfl⟩
  · obtain ⟨unit, hkeeps, hunit⟩ := exec_eq_execute (decode (fetchedWord s))
    rw [hunit] at hexec
    cases hexec
    exact execute_keepsMemory (s := s.advancePc) hkeeps _ hinv

/-! ### Which bytes an instruction can change -/

/-- The operation changes a byte only at an offset that `covers` allows for its operand0. -/
def ChangesOnly (covers : Word → Nat → Prop) (unit : ExecUnit) : Prop :=
  ∀ m a b r0 r1 m', m.wf = true → unit m a b = .ok r0 r1 m' → ∀ o, m'.readByte o ≠ m.readByte o → covers a o

section ChangesOnly

variable {covers : Word → Nat → Prop}

/-- An operation that answers the memory it was given changes no byte. -/
theorem changesOnly_of_mem_eq {unit : ExecUnit} (h : ∀ m a b r0 r1 m', unit m a b = .ok r0 r1 m' → m' = m) :
    ChangesOnly covers unit := by
  intro m a b r0 r1 m' _ hok o hne
  rw [h m a b r0 r1 m' hok] at hne
  exact absurd rfl hne

theorem changesOnly_computing (results : Word → Word → Word × Word) : ChangesOnly covers (computing results) :=
  changesOnly_of_mem_eq fun _ _ _ _ _ _ hok => by cases hok; rfl

theorem changesOnly_loading (n : Nat) (kind : AccessKind) :
    ChangesOnly covers (loading (fun m => m.load n) kind) := by
  refine changesOnly_of_mem_eq fun m a b r0 r1 m' hok => ?_
  rw [loading_eq] at hok
  split at hok
  · cases hok
    rfl
  · cases hok

theorem changesOnly_divUnit : ChangesOnly covers divUnit := by
  refine changesOnly_of_mem_eq fun m a b r0 r1 m' hok => ?_
  unfold divUnit at hok
  split at hok <;> cases hok
  rfl

/-- A store of width `n` changes only bytes of its access. -/
theorem changesOnly_storing (n : Nat) (kind : AccessKind)
    (hcovers : ∀ a o, n * a.toNat ≤ o ∧ o < n * a.toNat + n → covers a o) :
    ChangesOnly covers (storing (fun m => m.store n) kind) := by
  intro m a b r0 r1 m' hwf hok o hne
  rw [storing_eq] at hok
  split at hok
  case isTrue hb =>
    cases hok
    by_contra hout
    rw [Memory.readByte_write hwf hb, if_neg fun hin => hout (hcovers a o hin)] at hne
    exact hne rfl
  case isFalse => cases hok

/-- A byte that executing changes is one the operation may change: a skipped instruction, a missing immediate and a halt
leave memory as it was. -/
theorem execute_changesOnly {unit : ExecUnit} (hu : ChangesOnly covers unit) {s : State} {f : Fields}
    (hwf : s.mem.wf = true) {o : Nat} (hne : (s.execute f unit).mem.readByte o ≠ s.mem.readByte o) :
    covers (operand0 f s) o := by
  rcases execute_cases s f unit with ⟨-, he⟩ | ⟨-, -, s1, he, hm, -⟩ | ⟨-, -, he⟩
  · rw [he] at hne
    exact absurd rfl hne
  · rw [he, State.halt_mem, hm] at hne
    exact absurd rfl hne
  · rcases finish_cases (s.afterOperands f) f unit (operand0 f s) (operand1 f s) with
      ⟨r0, r1, m, hok, hf⟩ | ⟨r, hf, -⟩
    · rw [State.afterOperands_mem] at hok
      rw [he, hf, State.writeBack_mem] at hne
      exact hu _ _ _ _ _ _ hwf hok o hne
    · rw [he, hf, State.halt_mem, State.afterOperands_mem] at hne
      exact absurd rfl hne

end ChangesOnly

/-- Every meaning runs one operation of the Execution Unit, and the operation changes only bytes that a store with the
instruction's opcode covers. -/
theorem exec_changesOnly (i : Instr) : ∃ unit, ChangesOnly (StoreCovers i.opcode.toNat) unit ∧
    ∀ s, exec i s = .next (s.execute i.fields unit) := by
  cases i with
  | sto8 f => exact ⟨_, changesOnly_storing 1 .sto8 fun a o h => .inl ⟨rfl, by omega⟩, fun _ => rfl⟩
  | sto16 f => exact ⟨_, changesOnly_storing 2 .sto16 fun a o h => .inr (.inl ⟨rfl, h⟩), fun _ => rfl⟩
  | sto32 f => exact ⟨_, changesOnly_storing 4 .sto32 fun a o h => .inr (.inr ⟨rfl, h⟩), fun _ => rfl⟩
  | lod8 f => exact ⟨_, changesOnly_loading 1 .lod8, fun _ => rfl⟩
  | lod16 f => exact ⟨_, changesOnly_loading 2 .lod16, fun _ => rfl⟩
  | lod32 f => exact ⟨_, changesOnly_loading 4 .lod32, fun _ => rfl⟩
  | div f => exact ⟨_, changesOnly_divUnit, fun _ => rfl⟩
  | hlt f => exact ⟨fun _ _ _ => .halt, changesOnly_of_mem_eq nofun, fun _ => rfl⟩
  | illegal29 f => exact ⟨fun _ _ _ => .illegal 29#6, changesOnly_of_mem_eq nofun, fun _ => rfl⟩
  | illegal30to31 op f => exact ⟨fun _ _ _ => .illegal op, changesOnly_of_mem_eq nofun, fun _ => rfl⟩
  | illegal32to63 op f => exact ⟨fun _ _ _ => .illegal op, changesOnly_of_mem_eq nofun, fun _ => rfl⟩
  | _ => exact ⟨_, changesOnly_computing _, fun _ => rfl⟩

/-! ### The opcode of a decoded word (spec/30_encoding.md R47, R52) -/

/-- OPCODE_MAP lists the operations in the order of their opcodes. -/
theorem opcodeMap_opcodes (f : Fields) :
    opcodeMap.map (fun operation => (operation f).opcode) = (List.range 29).map (BitVec.ofNat 6) := rfl

theorem instrOf_opcode (op : BitVec 6) (f : Fields) : (instrOf op f).opcode = op := by
  unfold instrOf
  split
  case h_1 operation hop =>
    have hlt : op.toNat < 29 := (List.getElem?_eq_some_iff.mp hop).1
    have hmap := congrArg (·[op.toNat]?) (opcodeMap_opcodes f)
    simpa [hop, hlt] using hmap
  case h_2 =>
    split
    case isTrue h29 => exact h29.symm
    case isFalse => split <;> rfl

theorem decode_opcode_toNat (w : Word) : (decode w).opcode.toNat = w.toNat / 2 ^ 26 := by
  have hlt := w.isLt
  rw [decode, instrOf_opcode, opcodeOf, slice, BitVec.toNat_ofNat]
  omega

/-- Settles O45. A step that ends in PC_ESCAPE changes no byte. Any other runs the fetched instruction, which changes
only bytes that a store with the fetched opcode covers. -/
theorem onlyStoresChangeMemory : Obligations.OnlyStoresChangeMemory := by
  intro s t hinv _ hstep o hne
  rcases step_next_cases hstep with rfl | hexec
  · exact absurd rfl hne
  · obtain ⟨unit, hchanges, hunit⟩ := exec_changesOnly (decode (fetchedWord s))
    rw [decode_opcode_toNat] at hchanges
    rw [hunit, decode_fields] at hexec
    cases hexec
    exact execute_changesOnly hchanges (s := s.advancePc) hinv hne

/-! ### Self-modifying code (R43) -/

/-- A STO32 that executes in the image leaves exactly the memory its store writes, and the run state. -/
theorem exec_sto32_mem_run {f : Fields} {s t : State} (he : Executes f s) (ho : OperandsInImage f s)
    (hb : 4 * (operand0 f s).toNat + 4 ≤ s.mem.capacity) (h : exec (.sto32 f) s = .next t) :
    t.mem = s.mem.write (4 * (operand0 f s).toNat) 4 (operand1 f s).toNat ∧ t.run = s.run := by
  have hunit : storing Memory.store32 .sto32 (s.afterOperands f).mem (operand0 f s) (operand1 f s) =
      .ok (operand0 f s) (operand1 f s) (s.mem.write (4 * (operand0 f s).toNat) 4 (operand1 f s).toNat) := by
    rw [State.afterOperands_mem]
    exact (storing_eq 4 .sto32 _ _ _).trans (if_pos hb)
  have ht : s.execute f (storing Memory.store32 .sto32) = t := Host.Outcome.next.inj h
  rw [← ht, execute_finish he ho, finish_ok hunit, State.writeBack_mem, State.writeBack_run]
  exact ⟨rfl, State.afterOperands_run s f⟩

/-- The word just written at a word index is the one found there. -/
theorem wordAt_write_four {m : Memory} (h : m.wf = true) {a : Nat} (hb : 4 * a + 4 ≤ m.capacity) (v : Word) :
    wordAt (m.write (4 * a) 4 v.toNat) a = v := by
  rw [← ofNat_read_four, Memory.read_write h hb, ofNat_mod_four_bytes]

/-- Settles O41: the machine is still RUNNING with its pc in the image, so the step fetches the word at the pc, which is
the one the store has written. -/
theorem storedWordIsFetchedNext : Obligations.StoredWordIsFetchedNext := by
  intro f s t hinv hrun he ho hx hexec hpc
  have hb := Memory.word_le_capacity hx
  obtain ⟨hmem, htrun⟩ := exec_sto32_mem_run he ho hb hexec
  have hin : t.pc.toNat < t.mem.size := by rw [hpc, hmem, Memory.write_size]; exact hx
  have hword : wordAt t.mem t.pc.toNat = operand1 f s := by rw [hpc, hmem, wordAt_write_four hinv hb]
  rw [step_of_running (htrun.trans hrun) hin, fetchedWord, hword]

end Sys2Proof.Machine
end

section
/-! The encoding family (spec/30_encoding.md): the bits each field of a decoded word comes from, and the words whose
opcode names no operation. -/

namespace Sys2Proof.Machine

/-! ### Fields by their bits (R45, R46) -/

@[simp] theorem decode_opcode (w : Word) : (decode w).opcode = opcodeOf w := instrOf_opcode _ _

theorem slice_eq_extractLsb (w : Word) (hi lo : Nat) : slice w lo (hi - lo + 1) = (w.extractLsb hi lo).toNat := by
  rw [slice, BitVec.extractLsb_toNat, Nat.shiftRight_eq_div_pow]

theorem bitAt_eq_getLsbD (w : Word) (i : Nat) : bitAt w i = w.getLsbD i := by
  rw [bitAt, slice, pow_one, ← BitVec.testBit_toNat, Nat.testBit_eq_decide_div_mod_eq, beq_eq_decide]

theorem opcodeOf_eq_extractLsb (w : Word) : opcodeOf w = w.extractLsb 31 26 := by
  rw [opcodeOf, slice_eq_extractLsb w 31 26, BitVec.ofNat_toNat, BitVec.setWidth_eq]

/-- Settles O4. The decoder keeps the opcode and the fields it slices from the word, and each slice is the bits that R46
names: a register field by `slice_eq_extractLsb`, a flag by `bitAt_eq_getLsbD`. -/
theorem decoderReadsEveryField : Obligations.DecoderReadsEveryField := by
  intro w
  rw [decode_opcode, decode_fields]
  exact ⟨opcodeOf_eq_extractLsb w,
    bitAt_eq_getLsbD w 25, bitAt_eq_getLsbD w 24,
    slice_eq_extractLsb w 23 20, slice_eq_extractLsb w 19 16, slice_eq_extractLsb w 15 12,
    slice_eq_extractLsb w 11 8, slice_eq_extractLsb w 7 4,
    bitAt_eq_getLsbD w 3, bitAt_eq_getLsbD w 2, bitAt_eq_getLsbD w 1, bitAt_eq_getLsbD w 0⟩

/-! ### Recognized and unrecognized opcodes (R52, R54) -/

/-- Everything the opcode table can answer: an operation of OPCODE_MAP below 29, and from 29 on the row of unrecognized
opcodes that holds the number. -/
theorem instrOf_cases (op : BitVec 6) (f : Fields) :
    (op.toNat < 29 ∧ ∃ operation ∈ opcodeMap, instrOf op f = operation f) ∨
    (op.toNat = 29 ∧ instrOf op f = .illegal29 f) ∨
    ((op.toNat = 30 ∨ op.toNat = 31) ∧ instrOf op f = .illegal30to31 op f) ∨
    (32 ≤ op.toNat ∧ instrOf op f = .illegal32to63 op f) := by
  unfold instrOf
  split
  case h_1 operation hop =>
    exact .inl ⟨(List.getElem?_eq_some_iff.mp hop).1, operation, List.mem_of_getElem? hop, rfl⟩
  case h_2 hnone =>
    have hge : 29 ≤ op.toNat := List.getElem?_eq_none_iff.mp hnone
    split
    case isTrue h29 => exact .inr (.inl ⟨congrArg BitVec.toNat h29, rfl⟩)
    case isFalse h29 =>
      have hne : op.toNat ≠ 29 := fun h => h29 (BitVec.eq_of_toNat_eq h)
      split
      case isTrue => exact .inr (.inr (.inl ⟨by omega, rfl⟩))
      case isFalse h32 => exact .inr (.inr (.inr ⟨Nat.not_lt.mp h32, rfl⟩))

theorem instrOf_wf (op : BitVec 6) (f : Fields) : (instrOf op f).wf = true := by
  rcases instrOf_cases op f with ⟨-, operation, hmem, h⟩ | ⟨-, h⟩ | ⟨hrow, h⟩ | ⟨hrow, h⟩
  · have hmap : ∀ operation ∈ opcodeMap, (operation f).wf = true := by simp [opcodeMap, Instr.wf]
    rw [h, hmap operation hmem]
  · rw [h, Instr.wf]
  · rw [h, Instr.wf, decide_eq_true_iff]
    exact hrow.imp BitVec.eq_of_toNat_eq BitVec.eq_of_toNat_eq
  · rw [h, Instr.wf, decide_eq_true_iff]
    exact hrow

theorem decode_wf (w : Word) : (decode w).wf = true := instrOf_wf _ _

theorem opcodeOf_toNat (w : Word) : (opcodeOf w).toNat = w.toNat / 2 ^ 26 := by
  rw [← decode_opcode, decode_opcode_toNat]

theorem opcodeOf_eq_ofNat (w : Word) : opcodeOf w = BitVec.ofNat 6 (w.toNat / 2 ^ 26) := by
  rw [← opcodeOf_toNat, BitVec.ofNat_toNat, BitVec.setWidth_eq]

/-- 0x74000000 is 29 · 2^26, the first word of the unrecognized rows. -/
theorem opcodeOf_lt_iff (w : Word) : (opcodeOf w).toNat < 29 ↔ w.toNat < 0x74000000 := by
  rw [opcodeOf_toNat]
  omega

/-- An unrecognized opcode, of a well-formed instruction, is at least 29. -/
theorem opcode_ge_of_unrecognized {i : Instr} {op : BitVec 6} {f : Fields} (hwf : i.wf = true)
    (h : i = .illegal29 f ∨ i = .illegal30to31 op f ∨ i = .illegal32to63 op f) : 29 ≤ i.opcode.toNat := by
  rcases h with rfl | rfl | rfl
  · exact Nat.le_refl 29
  · rcases of_decide_eq_true hwf with rfl | rfl <;> simp [Instr.opcode]
  · have h32 : 32 ≤ op.toNat := of_decide_eq_true hwf
    exact Nat.le_trans (by decide) h32

/-- Settles O5. From 29 on, `instrOf_cases` leaves only the unrecognized rows. Below 29, a decoded instruction of one of
them would be well formed, and so have an opcode of at least 29. -/
theorem unrecognizedWordsKeepTheirOpcode : Obligations.UnrecognizedWordsKeepTheirOpcode := by
  intro w
  constructor
  · intro hge
    have hop : ¬ (opcodeOf w).toNat < 29 := (opcodeOf_lt_iff w).not.mpr (Nat.not_lt.mpr hge)
    rw [← opcodeOf_eq_ofNat, ← opcodeOf_toNat]
    exact (instrOf_cases (opcodeOf w) (fieldsOf w)).resolve_left fun h => hop h.1
  · intro hlt op f
    have hop : (decode w).opcode.toNat < 29 := by rwa [decode_opcode, opcodeOf_lt_iff]
    have hnot : ¬ (decode w = .illegal29 f ∨ decode w = .illegal30to31 op f ∨ decode w = .illegal32to63 op f) :=
      fun h => Nat.not_le.mpr hop (opcode_ge_of_unrecognized (decode_wf w) h)
    exact ⟨fun h => hnot (.inl h), fun h => hnot (.inr (.inl h)), fun h => hnot (.inr (.inr h))⟩

end Sys2Proof.Machine
end

section
/-! The execution cycle family (spec/40_execution_cycle.md): a step runs the fetched instruction and always answers, and
what a skip, a missing immediate and write-back leave in the registers. -/

namespace Sys2Proof.Machine

/-! ### FETCH and DECODE (R59–R61, R73) -/

/-- Settles O8: the instruction runs on the state that FETCH leaves, which is the advanced one. -/
theorem stepRunsTheDecodedInstruction : Obligations.StepRunsTheDecodedInstruction := by
  rintro s i hrun hpc rfl
  exact ⟨decode_wf _, s.advancePc, step_of_running hrun hpc, State.advancePc_mem s, State.advancePc_run s,
    s.advancePc_reg⟩

/-- Settles O11: PC_ESCAPE and every meaning are next states, and the one fault is a step from HALTED. -/
theorem stepFromRunningAlwaysAnswers : Obligations.StepFromRunningAlwaysAnswers := by
  intro s hrun
  rcases step_cases s with ⟨r, hr, -⟩ | ⟨-, -, hnext⟩ | ⟨-, -, hexec⟩
  · rw [hrun] at hr
    cases hr
  · exact ⟨_, hnext⟩
  · obtain ⟨unit, -, hunit⟩ := exec_eq_execute (decode (wordAt s.mem s.pc.toNat))
    exact ⟨_, hexec.trans (hunit s.advancePc)⟩

/-! ### CONDITION_CHECK and SKIP (R62, R63) -/

theorem exec_skipped {i : Instr} {s : State} (h : ¬ Executes i.fields s) : exec i s = .next s := by
  obtain ⟨unit, -, hunit⟩ := exec_eq_execute i
  rw [hunit, execute_skipped h]

/-- Settles O12: the state after a skip is the one that FETCH leaves. -/
theorem skippedInstructionOnlyAdvancesPcByOne : Obligations.SkippedInstructionOnlyAdvancesPcByOne := by
  refine ⟨fun i s => exec_skipped, fun s hrun hpc hskip => ?_⟩
  have hstep : step s = .next s.advancePc := by
    rw [step_of_running hrun hpc, exec_skipped (by rwa [decode_fields])]
  exact ⟨s.advancePc, hstep, State.advancePc_mem s, (State.advancePc_run s).trans hrun, s.advancePc_reg⟩

/-! ### Missing immediates (R64–R66) -/

section MissingImmediate

variable {f : Fields} {s : State}

/-- When an immediate is missing, either operand0's is, or operand0's is not and operand1's is. -/
theorem missing0_or_missing1 (h : ¬ OperandsInImage f s) :
    (f.imm0 = true ∧ s.mem.size ≤ s.pc.toNat) ∨
    ((f.imm0 = true → s.pc.toNat < s.mem.size) ∧ f.imm1 = true ∧ s.mem.size ≤ (pcForOperand1 f s).toNat) := by
  by_cases h0 : f.imm0 = true → s.pc.toNat < s.mem.size
  · have h1 : ¬ (f.imm1 = true → (pcForOperand1 f s).toNat < s.mem.size) := fun h1 => h ⟨h0, h1⟩
    rw [Classical.not_imp, Nat.not_lt] at h1
    exact .inr ⟨h0, h1⟩
  · rw [Classical.not_imp, Nat.not_lt] at h0
    exact .inl h0

/-- An instruction whose operand resolution faults ends in the state of that fault. -/
theorem execute_error {h : State} (he : Executes f s) (hr : s.resolveOperands f = .error h) (unit : ExecUnit) :
    s.execute f unit = h := by
  rw [State.execute, (skips_eq_false_iff f s).mpr he, hr]
  rfl

theorem execute_missing0 (he : Executes f s) (hi : f.imm0 = true) (h : s.mem.size ≤ s.pc.toNat) (unit : ExecUnit) :
    s.execute f unit = s.halt (.memFault .imm s.pc) :=
  execute_error he (resolveOperands_missing0 hi h) unit

theorem execute_missing1 (he : Executes f s) (h0 : f.imm0 = true → s.pc.toNat < s.mem.size) (hi : f.imm1 = true)
    (h : s.mem.size ≤ (pcForOperand1 f s).toNat) (unit : ExecUnit) :
    ∃ s1 : State, s.execute f unit = s1.halt (.memFault .imm (pcForOperand1 f s)) ∧ s1.mem = s.mem ∧
      ∀ j, s1.reg j = if j = pcIndex then pcForOperand1 f s else s.reg j := by
  refine ⟨_, execute_error he (resolveOperands_missing1 h0 hi h) unit, ?_⟩
  unfold pcForOperand1
  cases f.imm0 with
  | true => exact ⟨State.advancePc_mem s, s.advancePc_reg⟩
  | false =>
    refine ⟨rfl, fun j => ?_⟩
    by_cases hj : j = pcIndex <;> simp [hj, State.pc_eq]

end MissingImmediate

/-- Settles O13. Operand resolution comes before the operation of the Execution Unit, so the opcode plays no part. -/
theorem missingImmediateHaltsWithMemFault : Obligations.MissingImmediateHaltsWithMemFault := by
  intro i s he
  obtain ⟨unit, -, hunit⟩ := exec_eq_execute i
  constructor
  · intro hi h
    rw [hunit, execute_missing0 he hi h]
  · intro h0 hi h
    obtain ⟨s1, hs1, hmem, hreg⟩ := execute_missing1 he h0 hi h unit
    exact ⟨_, (hunit s).trans (congrArg _ hs1), rfl, hmem, hreg⟩

/-! ### EXECUTE and WRITEBACK (R67, R68) -/

/-- Settles O14: a completing operation writes back over its own memory, and any other outcome halts. -/
theorem writeBackFollowsTheEnables : Obligations.WriteBackFollowsTheEnables := by
  intro f s unit a b
  constructor
  · intro r0 r1 m hok j
    rw [finish_ok hok, State.writeBack_reg, State.withMem_reg]
  · intro hout j
    rcases finish_cases s f unit a b with ⟨r0, r1, m, hok, -⟩ | ⟨r, hf, -⟩
    · simp [hok] at hout
    · rw [hf, State.halt_reg]

/-! ### Where an instruction leaves the pc (R66, R73) -/

theorem pcForOperand1_eq_add (f : Fields) (s : State) :
    pcForOperand1 f s = s.pc + BitVec.ofNat 32 f.imm0.toNat := by
  unfold pcForOperand1
  cases f.imm0 <;> rfl

theorem pcAfterOperands_eq_add (f : Fields) (s : State) :
    pcAfterOperands f s = s.pc + BitVec.ofNat 32 (f.imm0.toNat + f.imm1.toNat) := by
  rw [pcAfterOperands, pcForOperand1_eq_add, BitVec.ofNat_add, BitVec.add_assoc]
  cases f.imm1 <;> rfl

/-- Everywhere the pc can be once an instruction that does not write it is done: at its first immediate, at operand1's,
or past both. -/
theorem execute_pc_cases {f : Fields} (h0 : ¬ (f.we0 = true ∧ pcIndex = f.d0)) (h1 : ¬ (f.we1 = true ∧ pcIndex = f.d1))
    (s : State) (unit : ExecUnit) :
    (s.execute f unit).pc = s.pc ∨ (s.execute f unit).pc = pcForOperand1 f s ∨
      (s.execute f unit).pc = pcAfterOperands f s := by
  by_cases he : Executes f s
  · by_cases ho : OperandsInImage f s
    · refine .inr (.inr ?_)
      rw [execute_finish he ho, State.pc_eq, finish_reg_of_not_dest h0 h1, State.afterOperands_reg, if_pos rfl]
    · rcases missing0_or_missing1 ho with ⟨hi, h⟩ | ⟨hin, hi, h⟩
      · rw [execute_missing0 he hi h]
        exact .inl rfl
      · obtain ⟨s1, hs1, -, hreg⟩ := execute_missing1 he hin hi h unit
        refine .inr (.inl ?_)
        rw [hs1, State.halt_pc, State.pc_eq, hreg, if_pos rfl]
  · rw [execute_skipped he]
    exact .inl rfl

/-- An instruction that does not write the pc moves it past at most its own immediates. -/
theorem execute_pc_eq_add {f : Fields} (h0 : ¬ (f.we0 = true ∧ pcIndex = f.d0))
    (h1 : ¬ (f.we1 = true ∧ pcIndex = f.d1)) (s : State) (unit : ExecUnit) :
    ∃ k, k ≤ f.imm0.toNat + f.imm1.toNat ∧ (s.execute f unit).pc = s.pc + BitVec.ofNat 32 k := by
  rcases execute_pc_cases h0 h1 s unit with h | h | h
  · exact ⟨0, Nat.zero_le _, h.trans (BitVec.add_zero _).symm⟩
  · exact ⟨_, Nat.le_add_right _ _, h.trans (pcForOperand1_eq_add f s)⟩
  · exact ⟨_, Nat.le_refl _, h.trans (pcAfterOperands_eq_add f s)⟩

/-- Settles O46. PC_ESCAPE leaves the pc; any other step advances it past the instruction word, and then
`execute_pc_eq_add` bounds how far the instruction moves it. -/
theorem onlyWriteBackToFifteenJumps : Obligations.OnlyWriteBackToFifteenJumps := by
  intro s t _ hstep h0 h1
  rcases step_next_cases hstep with rfl | hexec
  · exact ⟨0, Nat.zero_le _, (BitVec.add_zero _).symm⟩
  · obtain ⟨unit, -, hunit⟩ := exec_eq_execute (decode (fetchedWord s))
    rw [hunit, decode_fields] at hexec
    cases hexec
    rw [eq_comm (b := pcIndex)] at h0 h1
    obtain ⟨k, hk, hpc⟩ := execute_pc_eq_add h0 h1 s.advancePc unit
    refine ⟨1 + k, by omega, ?_⟩
    rw [hpc, State.advancePc_pc, BitVec.ofNat_add, BitVec.add_assoc]

end Sys2Proof.Machine
end

section
/-! The move and logic family (spec/41_move_logic.md): the word an instruction is encoded at, what an operation that only
computes its results leaves in the state, and the results of MOV, NOT and the bitwise operations. -/

namespace Sys2Proof.Machine

/-! ### The word `base | fields` (R45) -/

section EncodedWord

variable (op : BitVec 6) (f : Fields)

/-- The fields lie below the opcode. -/
theorem packFields_lt : packFields f < 2 ^ 26 := by
  have hce := f.ce.toNat_le
  have hci := f.ci.toNat_le
  have hwe0 := f.we0.toNat_le
  have hwe1 := f.we1.toNat_le
  have himm0 := f.imm0.toNat_le
  have himm1 := f.imm1.toNat_le
  unfold packFields
  omega

theorem encodeWord_toNat : (encodeWord op f).toNat = op.toNat * 2 ^ 26 + packFields f := by
  have hop := op.isLt
  have hpack := packFields_lt f
  rw [encodeWord, BitVec.toNat_ofNat, Nat.mod_eq_of_lt (by omega)]

/-- The opcode and the fields share no bit, so the sum of R45 is their bitwise OR. -/
theorem encodeWord_eq_or {base : Word} (hbase : base.toNat = op.toNat * 2 ^ 26) :
    encodeWord op f = base ||| BitVec.ofNat 32 (packFields f) := by
  have hpack := packFields_lt f
  apply BitVec.eq_of_toNat_eq
  rw [encodeWord_toNat, BitVec.toNat_or, BitVec.toNat_ofNat, Nat.mod_eq_of_lt (by omega), hbase, Nat.mul_comm]
  exact Nat.two_pow_add_eq_or_of_lt hpack _

theorem opcodeOf_encodeWord : opcodeOf (encodeWord op f) = op := by
  have hpack := packFields_lt f
  apply BitVec.eq_of_toNat_eq
  rw [opcodeOf_toNat, encodeWord_toNat]
  omega

theorem bitAt_eq_of_slice_eq {w : Word} {i : Nat} {b : Bool} (h : slice w i 1 = b.toNat) : bitAt w i = b := by
  rw [bitAt, h]
  cases b <;> rfl

/-- Each field is read back from its own place: the fields below it do not reach it, and those above are cut off. -/
theorem fieldsOf_encodeWord : fieldsOf (encodeWord op f) = f := by
  have hw := encodeWord_toNat op f
  obtain ⟨ce, ci, cr, d0, d1, s0, s1, we0, we1, imm0, imm1⟩ := f
  have hce := ce.toNat_le
  have hci := ci.toNat_le
  have hwe0 := we0.toNat_le
  have hwe1 := we1.toNat_le
  have himm0 := imm0.toNat_le
  have himm1 := imm1.toNat_le
  simp only [packFields] at hw
  simp only [fieldsOf, Fields.mk.injEq]
  refine ⟨bitAt_eq_of_slice_eq ?_, bitAt_eq_of_slice_eq ?_, Fin.ext ?_, Fin.ext ?_, Fin.ext ?_, Fin.ext ?_, Fin.ext ?_,
    bitAt_eq_of_slice_eq ?_, bitAt_eq_of_slice_eq ?_, bitAt_eq_of_slice_eq ?_, bitAt_eq_of_slice_eq ?_⟩
  all_goals
    simp only [regAt, slice, hw]
    omega

end EncodedWord

/-- The opcode table holds every well-formed instruction at its opcode. -/
theorem instrOf_opcode_fields {i : Instr} (hwf : i.wf = true) : instrOf i.opcode i.fields = i := by
  cases i with
  | illegal30to31 op f => exact Laws.OpcodeAgrees.illegal30to31 op f hwf
  | illegal32to63 op f => exact Laws.OpcodeAgrees.illegal32to63 op f hwf
  | _ => rfl

theorem decode_encode {i : Instr} (hwf : i.wf = true) : decode (encode i) = i := by
  rw [decode, encode, opcodeOf_encodeWord, fieldsOf_encodeWord, instrOf_opcode_fields hwf]

/-- A word of zero fields with the instruction's opcode is the base of its encoding. -/
theorem encodedAt_of_base {i : Instr} {base : Word} (hwf : i.wf = true) (hop : i.opcode = opcodeOf base)
    (hlow : base.toNat % 2 ^ 26 = 0) : EncodedAt i base := by
  have hbase : base.toNat = i.opcode.toNat * 2 ^ 26 := by rw [hop, opcodeOf_toNat]; omega
  have hword : encode i = base ||| BitVec.ofNat 32 (packFields i.fields) := encodeWord_eq_or _ _ hbase
  exact ⟨hword, hword ▸ decode_encode hwf⟩

/-! ### Operations that only compute (R67, R68, R74) -/

/-- An executed instruction whose operation only computes completes with the results computed from its operands. -/
theorem completesWith_of_computing {i : Instr} {s : State} {results : Word → Word → Word × Word}
    (hi : exec i s = .next (s.execute i.fields (computing results)))
    (he : Executes i.fields s) (ho : OperandsInImage i.fields s) :
    CompletesWith i s (results (operand0 i.fields s) (operand1 i.fields s)).1
      (results (operand0 i.fields s) (operand1 i.fields s)).2 := by
  refine ⟨_, hi, ?_⟩
  rw [execute_finish he ho, finish_ok rfl, State.writeBack_mem, State.writeBack_run]
  refine ⟨fun j => ?_, fun o => ?_, ?_, State.afterOperands_run s _⟩
  · rw [State.writeBack_reg, State.withMem_reg, State.afterOperands_reg]
  · rw [State.withMem_mem, State.afterOperands_mem]
  · rw [State.withMem_mem, State.afterOperands_mem]

/-! ### MOV, NOT and the bitwise operations (R75–R82) -/

/-- Settles O15: MOV's operation hands its operands on. -/
theorem movCompletes : Obligations.MovCompletes := fun _ _ he ho =>
  ⟨completesWith_of_computing (results := movResults) rfl he ho, encodedAt_of_base rfl rfl rfl⟩

/-- The complement as a number (spec/00_scope.md R6). -/
theorem not_eq_ofNat_sub (v : Word) : ~~~v = BitVec.ofNat 32 (0xFFFFFFFF - v.toNat) := by
  apply BitVec.eq_of_toNat_eq
  rw [BitVec.toNat_not, BitVec.toNat_ofNat]
  omega

/-- Settles O16: NOT's operation complements both operands, and `not_eq_ofNat_sub` is R6's reading of a complement. -/
theorem notCompletes : Obligations.NotCompletes := by
  intro f s he ho
  rw [← not_eq_ofNat_sub, ← not_eq_ofNat_sub]
  exact ⟨completesWith_of_computing (results := notResults) rfl he ho, encodedAt_of_base rfl rfl rfl⟩

/-- Below the width, a complement flips the bit. -/
theorem getLsbD_not_of_lt {k : Nat} (hk : k < 32) (v : Word) : (~~~v).getLsbD k = !v.getLsbD k := by
  rw [BitVec.getLsbD_not, decide_eq_true hk, Bool.true_and]

/-- Settles O17: each result is the bitwise word operation on the operands, or its complement. -/
theorem bitwiseOperationsComplete : Obligations.BitwiseOperationsComplete := by
  intro f s he ho
  refine ⟨operand0 f s ||| operand1 f s, ~~~(operand0 f s ||| operand1 f s),
    operand0 f s &&& operand1 f s, ~~~(operand0 f s &&& operand1 f s),
    operand0 f s ^^^ operand1 f s, ~~~(operand0 f s ^^^ operand1 f s), fun k hk => ?bits,
    completesWith_of_computing (results := orResults) rfl he ho, encodedAt_of_base rfl rfl rfl,
    completesWith_of_computing (results := norResults) rfl he ho, encodedAt_of_base rfl rfl rfl,
    completesWith_of_computing (results := andResults) rfl he ho, encodedAt_of_base rfl rfl rfl,
    completesWith_of_computing (results := nandResults) rfl he ho, encodedAt_of_base rfl rfl rfl,
    completesWith_of_computing (results := xorResults) rfl he ho, encodedAt_of_base rfl rfl rfl,
    completesWith_of_computing (results := xnorResults) rfl he ho, encodedAt_of_base rfl rfl rfl⟩
  case bits =>
    rw [getLsbD_not_of_lt hk, getLsbD_not_of_lt hk, getLsbD_not_of_lt hk, BitVec.getLsbD_or, BitVec.getLsbD_and,
      BitVec.getLsbD_xor]
    exact ⟨rfl, rfl, rfl, rfl, rfl, Bool.not_not _⟩

end Sys2Proof.Machine
end

section
/-! The arithmetic and comparison family (spec/42_arith_compare.md): the results of NEG, ADD, SUB and the comparisons,
as the rules write them on numbers, and that the instructions complete with them. -/

namespace Sys2Proof.Machine

/-! ### The results of the operations (R83–R89) -/

section Results

variable (a b : Word)

theorem negResults_eq : negResults a b = (BitVec.ofNat 32 ((2 ^ 32 - a.toNat) % 2 ^ 32), 0#32) := by
  have hneg : -a = BitVec.ofNat 32 ((2 ^ 32 - a.toNat) % 2 ^ 32) := by
    rw [← BitVec.toNat_neg, BitVec.ofNat_toNat, BitVec.setWidth_eq]
  rw [negResults, hneg]

/-- The two cases of `carryOut` are R84's, so only the sum is to be read as a number. -/
theorem addResults_eq : addResults a b =
    (BitVec.ofNat 32 ((a.toNat + b.toNat) % 2 ^ 32), if a.toNat + b.toNat ≥ 2 ^ 32 then 1#32 else 0#32) := by
  have hadd : a + b = BitVec.ofNat 32 ((a.toNat + b.toNat) % 2 ^ 32) := by
    rw [← BitVec.toNat_add, BitVec.ofNat_toNat, BitVec.setWidth_eq]
  rw [addResults, hadd, carryOut]

/-- An integer difference wraps to the word difference, whichever operand is the larger. -/
theorem subResults_eq : subResults a b =
    (BitVec.ofInt 32 ((a.toNat : Int) - (b.toNat : Int)), if a.toNat < b.toNat then 0xFFFFFFFF#32 else 0#32) := by
  have hsub : a - b = BitVec.ofInt 32 ((a.toNat : Int) - (b.toNat : Int)) := by
    apply BitVec.eq_of_toNat_eq
    rw [BitVec.toNat_sub, BitVec.toNat_ofInt]
    omega
  rw [subResults, hsub, borrowMask, maskOf_decide]

/-- The mask of an opposite, by the proposition that the rule reads the opposite as. -/
theorem maskOf_not_decide_of_iff {p q : Prop} [Decidable p] [Decidable q] (h : ¬ p ↔ q) :
    maskOf (!decide p) = if q then 0xFFFFFFFF#32 else 0#32 := by
  rw [← decide_not, maskOf_decide]
  simp only [h]

theorem ltResults_eq : ltResults a b = (if a.toNat < b.toNat then 0xFFFFFFFF#32 else 0#32, 0#32) := by
  rw [ltResults, unsignedLess, maskOf_decide]

theorem nltResults_eq : nltResults a b = (if a.toNat ≥ b.toNat then 0xFFFFFFFF#32 else 0#32, 0#32) := by
  rw [nltResults, unsignedLess, maskOf_not_decide_of_iff Nat.not_lt]

theorem sltResults_eq : sltResults a b = (if a.toInt < b.toInt then 0xFFFFFFFF#32 else 0#32, 0#32) := by
  rw [sltResults, signedLess_eq, maskOf_decide]

theorem nsltResults_eq : nsltResults a b = (if a.toInt ≥ b.toInt then 0xFFFFFFFF#32 else 0#32, 0#32) := by
  rw [nsltResults, signedLess_eq, maskOf_not_decide_of_iff Int.not_lt]

end Results

/-! ### The instructions complete with them -/

/-- `completesWith_of_computing` for results known by an equation. -/
theorem completesWith_of_results_eq {i : Instr} {s : State} {results : Word → Word → Word × Word} {r0 r1 : Word}
    (hi : exec i s = .next (s.execute i.fields (computing results)))
    (he : Executes i.fields s) (ho : OperandsInImage i.fields s)
    (hr : results (operand0 i.fields s) (operand1 i.fields s) = (r0, r1)) : CompletesWith i s r0 r1 := by
  have hc := completesWith_of_computing hi he ho
  rwa [hr] at hc

/-- Settles O18: the word negation is R83's difference from 2^32. -/
theorem negCompletes : Obligations.NegCompletes := fun _ _ he ho =>
  ⟨completesWith_of_results_eq rfl he ho (negResults_eq _ _), encodedAt_of_base rfl rfl rfl⟩

/-- Settles O19: the word sum is the exact sum mod 2^32, and the carry looks at the exact sum. -/
theorem addCompletesWithCarry : Obligations.AddCompletesWithCarry := fun _ _ he ho =>
  ⟨completesWith_of_results_eq rfl he ho (addResults_eq _ _), encodedAt_of_base rfl rfl rfl⟩

/-- Settles O20: the word difference is the integer one mod 2^32, and the borrow is a mask. -/
theorem subCompletesWithBorrow : Obligations.SubCompletesWithBorrow := fun _ _ he ho =>
  ⟨completesWith_of_results_eq rfl he ho (subResults_eq _ _), encodedAt_of_base rfl rfl rfl⟩

/-- Settles O21: NLT's mask is that of `¬ a < b`, which is `a ≥ b`. -/
theorem unsignedComparisonsComplete : Obligations.UnsignedComparisonsComplete := fun _ _ he ho =>
  ⟨completesWith_of_results_eq rfl he ho (ltResults_eq _ _), encodedAt_of_base rfl rfl rfl,
    completesWith_of_results_eq rfl he ho (nltResults_eq _ _), encodedAt_of_base rfl rfl rfl⟩

/-- Settles O22: by `signedLess_eq`, comparing with bit 31 of both operands flipped is comparing the two's-complement
readings. -/
theorem signedComparisonsComplete : Obligations.SignedComparisonsComplete := fun _ _ he ho =>
  ⟨completesWith_of_results_eq rfl he ho (sltResults_eq _ _), encodedAt_of_base rfl rfl rfl,
    completesWith_of_results_eq rfl he ho (nsltResults_eq _ _), encodedAt_of_base rfl rfl rfl⟩

end Sys2Proof.Machine
end

section
/-! The shift family (spec/43_shift.md): the 64-bit value each shift leaves, as the rules write it on numbers, and that
the instructions complete with its halves. -/

namespace Sys2Proof.Machine

/-! ### The 64-bit values (R90–R93) -/

theorem toNat_shiftLeft_eq_mul (v : BitVec 64) (sh : Nat) : (v <<< sh).toNat = v.toNat * 2 ^ sh % 2 ^ 64 := by
  rw [BitVec.toNat_shiftLeft, Nat.shiftLeft_eq]

theorem toNat_zeroExtend (a : Word) : (a.setWidth 64).toNat = a.toNat :=
  BitVec.toNat_setWidth_of_le (by decide)

/-- The model's sign extension is R7's: the upper 32 bits are added when bit 31 is set. -/
theorem toNat_signExtend_eq (a : Word) : (a.signExtend 64).toNat = signExtended a := by
  rw [BitVec.toNat_signExtend, toNat_zeroExtend, BitVec.msb_eq_decide, signExtended]
  by_cases h : a.toNat < 2 ^ 31
  · rw [if_pos h, if_neg (by simpa using h), Nat.add_zero]
  · rw [if_neg h, if_pos (by simpa using h)]

/-- A 64-bit value is its two's-complement reading mod 2^64. -/
theorem toNat_eq_toInt_emod (v : BitVec 64) : v.toNat = (v.toInt % 2 ^ 64).toNat := by
  have hofInt : (BitVec.ofInt 64 v.toInt).toNat = (v.toInt % 2 ^ 64).toNat := BitVec.toNat_ofInt _
  rwa [BitVec.ofInt_toInt] at hofInt

/-- Sign extension keeps the two's-complement reading, and shifting in the sign rounds it toward −∞. -/
theorem toInt_sshiftRight_signExtend (a : Word) (sh : Nat) :
    ((a.signExtend 64).sshiftRight sh).toInt = a.toInt / 2 ^ sh := by
  rw [BitVec.toInt_sshiftRight, BitVec.toInt_signExtend_of_le (by decide), Int.shiftRight_eq_div_pow, Nat.cast_pow,
    Nat.cast_ofNat]

/-! ### The results of the operations -/

section ShiftResults

variable (a b : Word)

theorem slResults_eq : slResults a b =
    (lowWord (a.toNat * 2 ^ (b.toNat % 256) % 2 ^ 64), highWord (a.toNat * 2 ^ (b.toNat % 256) % 2 ^ 64)) := by
  rw [slResults, halves_eq, toNat_shiftLeft_eq_mul, toNat_zeroExtend, shiftAmount]

theorem srResults_eq : srResults a b =
    (lowWord (a.toNat / 2 ^ (b.toNat % 256)), highWord (a.toNat / 2 ^ (b.toNat % 256))) := by
  rw [srResults, halves_eq, BitVec.toNat_ushiftRight, Nat.shiftRight_eq_div_pow, toNat_zeroExtend, shiftAmount]

theorem sslResults_eq : sslResults a b =
    (lowWord (signExtended a * 2 ^ (b.toNat % 256) % 2 ^ 64),
      highWord (signExtended a * 2 ^ (b.toNat % 256) % 2 ^ 64)) := by
  rw [sslResults, halves_eq, toNat_shiftLeft_eq_mul, toNat_signExtend_eq, shiftAmount]

theorem ssrResults_eq : ssrResults a b =
    (lowWord (a.toInt / 2 ^ (b.toNat % 256) % 2 ^ 64).toNat,
      highWord (a.toInt / 2 ^ (b.toNat % 256) % 2 ^ 64).toNat) := by
  rw [ssrResults, halves_eq, toNat_eq_toInt_emod, toInt_sshiftRight_signExtend, shiftAmount]

end ShiftResults

/-! ### The instructions complete with them -/

/-- Settles O23: a left shift of the zero-extended operand is R90's multiplication mod 2^64. -/
theorem slCompletes : Obligations.SlCompletes := fun _ _ he ho =>
  ⟨completesWith_of_results_eq rfl he ho (slResults_eq _ _), encodedAt_of_base rfl rfl rfl⟩

/-- Settles O24: a logical right shift is R91's division, which rounds down. -/
theorem srCompletes : Obligations.SrCompletes := fun _ _ he ho =>
  ⟨completesWith_of_results_eq rfl he ho (srResults_eq _ _), encodedAt_of_base rfl rfl rfl⟩

/-- Settles O25: SL's shift on the sign-extended operand, which `toNat_signExtend_eq` reads as R7 does. -/
theorem sslCompletes : Obligations.SslCompletes := fun _ _ he ho =>
  ⟨completesWith_of_results_eq rfl he ho (sslResults_eq _ _), encodedAt_of_base rfl rfl rfl⟩

/-- Settles O26: by `toInt_sshiftRight_signExtend`, shifting in the sign is R93's division rounding toward −∞. -/
theorem ssrCompletes : Obligations.SsrCompletes := fun _ _ he ho =>
  ⟨completesWith_of_results_eq rfl he ho (ssrResults_eq _ _), encodedAt_of_base rfl rfl rfl⟩

end Sys2Proof.Machine
end

section
/-! The reciprocal, multiply and divide family (spec/44_muldiv.md): the results of REP, MUL and DIV, as the rules write
them on numbers, and that the instructions complete with them. -/

namespace Sys2Proof.Machine

/-! ### The results of the operations (R94–R96) -/

section MulDivResults

variable (a b : Word)

/-- R94's quotient 1 / a is 1 for a = 1, and rounds down to 0 for every larger a. -/
theorem repResults_eq : repResults a b =
    (if a = 0#32 then 0xFFFFFFFF#32 else if a = 1#32 then 1#32 else 0#32, 0#32) := by
  rw [repResults, allOnes]
  split
  case isTrue => rfl
  case isFalse h0 =>
    split
    case isTrue h1 => rw [h1, BitVec.udiv_one]
    case isFalse h1 =>
      have hlt : 1#32 < a := by bv_omega
      rw [BitVec.udiv_eq_zero_iff_eq_zero_or_lt.mpr (.inr hlt)]

/-- The two words hold the whole product (R95): it is below 2^64, so its quotient by 2^32 fits in a word. -/
theorem mulResults_toNat :
    (mulResults a b).1.toNat + 2 ^ 32 * (mulResults a b).2.toNat = a.toNat * b.toNat := by
  have hprod : a.toNat * b.toNat < 2 ^ 32 * 2 ^ 32 := Nat.mul_lt_mul'' a.isLt b.isLt
  have hhigh : a.toNat * b.toNat / 2 ^ 32 < 2 ^ 32 := Nat.div_lt_of_lt_mul hprod
  rw [mulResults, BitVec.toNat_ofNat, BitVec.toNat_ofNat, Nat.mod_eq_of_lt hhigh, Nat.mod_add_div]

/-- The remainder and the quotient, in the order R96 delivers them. -/
def divResults : Word × Word := (a % b, a / b)

theorem divUnit_of_ne_zero {b : Word} (hb : b ≠ 0#32) (m : Memory) :
    divUnit m a b = computing divResults m a b := if_neg hb

theorem divResults_toNat :
    a.toNat = (divResults a b).2.toNat * b.toNat + (divResults a b).1.toNat := by
  rw [divResults, BitVec.toNat_udiv, BitVec.toNat_umod, Nat.div_add_mod']

theorem divResults_remainder_lt {b : Word} (hb : b ≠ 0#32) : (divResults a b).1.toNat < b.toNat := by
  have hpos : 0 < b.toNat := BitVec.toNat_pos_of_ne_zero hb
  rw [divResults, BitVec.toNat_umod]
  exact Nat.mod_lt _ hpos

end MulDivResults

/-! ### The instructions complete with them -/

/-- An executed instruction sees no more of its operation than the answer on its own operands. -/
theorem execute_congr_unit {f : Fields} {s : State} {unit unit' : ExecUnit} (he : Executes f s)
    (ho : OperandsInImage f s) (h : ∀ m, unit m (operand0 f s) (operand1 f s) = unit' m (operand0 f s) (operand1 f s)) :
    s.execute f unit = s.execute f unit' := by
  rw [execute_finish he ho, execute_finish he ho, State.finish, State.finish, h]

/-- With a non-zero divisor, DIV's operation only computes. -/
theorem exec_div_of_ne_zero {f : Fields} {s : State} (he : Executes f s) (ho : OperandsInImage f s)
    (hb : operand1 f s ≠ 0#32) : exec (.div f) s = .next (s.execute f (computing divResults)) := by
  rw [← execute_congr_unit he ho (divUnit_of_ne_zero _ hb)]
  rfl

/-- Settles O27: by `repResults_eq`, the quotient has R94's three cases. -/
theorem repCompletes : Obligations.RepCompletes := fun _ _ he ho =>
  ⟨completesWith_of_results_eq rfl he ho (repResults_eq _ _), encodedAt_of_base rfl rfl rfl⟩

/-- Settles O28: by `mulResults_toNat`, no bit of the exact product is lost. -/
theorem mulCompletes : Obligations.MulCompletes := fun _ _ he ho =>
  ⟨_, _, completesWith_of_computing (results := mulResults) rfl he ho, mulResults_toNat _ _,
    encodedAt_of_base rfl rfl rfl⟩

/-- Settles O29: with a non-zero divisor the word remainder and quotient meet the division equation of R96. -/
theorem divCompletesForNonzeroDivisor : Obligations.DivCompletesForNonzeroDivisor := fun _ _ he ho hb =>
  ⟨_, _, completesWith_of_computing (exec_div_of_ne_zero he ho hb) he ho, divResults_remainder_lt _ hb,
    divResults_toNat _ _, encodedAt_of_base rfl rfl rfl⟩

end Sys2Proof.Machine
end

section
/-! The load and store family (spec/45_load_store.md): what an instruction that completes or halts at EXECUTE leaves,
and that loads and stores of every width complete exactly when their access lies in the image. -/

namespace Sys2Proof.Machine

/-! ### How an instruction with its operands ends (R67, R68, R111) -/

section OperandsResolved

variable {i : Instr} {s : State} {unit : ExecUnit}

/-- The state a completing operation leaves: both results written back, over the memory the operation answers. -/
theorem exec_of_unit_ok {r0 r1 : Word} {m : Memory} (hi : exec i s = .next (s.execute i.fields unit))
    (he : Executes i.fields s) (ho : OperandsInImage i.fields s)
    (hok : unit s.mem (operand0 i.fields s) (operand1 i.fields s) = .ok r0 r1 m) :
    ∃ t, exec i s = .next t ∧ RegistersAfter i.fields s t r0 r1 ∧ t.mem = m ∧ t.run = s.run := by
  refine ⟨_, hi, ?_⟩
  rw [← State.afterOperands_mem s i.fields] at hok
  rw [execute_finish he ho, finish_ok hok, State.writeBack_mem, State.writeBack_run]
  refine ⟨fun j => ?_, rfl, State.afterOperands_run s _⟩
  rw [State.writeBack_reg, State.withMem_reg, State.afterOperands_reg]

/-- Halting at EXECUTE moves only the pc, past the immediates. -/
theorem haltsWith_of_finish {r : HaltReason} (hi : exec i s = .next (s.execute i.fields unit))
    (he : Executes i.fields s) (ho : OperandsInImage i.fields s)
    (hr : (s.afterOperands i.fields).finish i.fields unit (operand0 i.fields s) (operand1 i.fields s) =
      (s.afterOperands i.fields).halt r) : HaltsWith i s r := by
  refine ⟨_, hi, ?_⟩
  rw [execute_finish he ho, hr, State.halt_mem, State.afterOperands_mem]
  exact ⟨rfl, s.afterOperands_reg i.fields, fun _ => rfl, rfl⟩

theorem haltsWith_of_unit_fault {r : HaltReason} (hi : exec i s = .next (s.execute i.fields unit))
    (he : Executes i.fields s) (ho : OperandsInImage i.fields s)
    (hfault : unit s.mem (operand0 i.fields s) (operand1 i.fields s) = .fault r) : HaltsWith i s r := by
  rw [← State.afterOperands_mem s i.fields] at hfault
  exact haltsWith_of_finish hi he ho (by rw [State.finish, hfault])

end OperandsResolved

/-! ### Stores and loads of any width (R28, R36) -/

section AnyWidth

variable {i : Instr} {s : State} {n : Nat} {kind : AccessKind}

theorem completesStoring_of_inBounds
    (hi : exec i s = .next (s.execute i.fields (storing (fun m => m.store n) kind))) (hinv : s.Inv)
    (he : Executes i.fields s) (ho : OperandsInImage i.fields s)
    (hb : n * (operand0 i.fields s).toNat + n ≤ s.mem.capacity) :
    CompletesStoring i s n (operand0 i.fields s) (operand1 i.fields s) := by
  obtain ⟨t, hnext, hregs, hmem, hrun⟩ := exec_of_unit_ok hi he ho ((storing_eq ..).trans (if_pos hb))
  refine ⟨t, hnext, hregs, fun o => ?_, ?_, hrun⟩
  · rw [hmem, Memory.readByte_write hinv hb]
  · rw [hmem, Memory.write_size]

theorem haltsWith_of_store_outOfBounds
    (hi : exec i s = .next (s.execute i.fields (storing (fun m => m.store n) kind)))
    (he : Executes i.fields s) (ho : OperandsInImage i.fields s)
    (hb : s.mem.capacity < n * (operand0 i.fields s).toNat + n) :
    HaltsWith i s (.memFault kind (operand0 i.fields s)) :=
  haltsWith_of_unit_fault hi he ho ((storing_eq ..).trans (if_neg (Nat.not_le.mpr hb)))

/-- The rule may write the loaded value in its own way: `hv` says that it is the little-endian read. -/
theorem completesWith_of_load_inBounds {v : Word}
    (hi : exec i s = .next (s.execute i.fields (loading (fun m => m.load n) kind)))
    (he : Executes i.fields s) (ho : OperandsInImage i.fields s)
    (hb : n * (operand0 i.fields s).toNat + n ≤ s.mem.capacity)
    (hv : BitVec.ofNat 32 (s.mem.read (n * (operand0 i.fields s).toNat) n) = v) :
    CompletesWith i s v (operand1 i.fields s) := by
  obtain ⟨t, hnext, hregs, hmem, hrun⟩ := exec_of_unit_ok hi he ho ((loading_eq ..).trans (if_pos hb))
  rw [hv] at hregs
  exact ⟨t, hnext, hregs, fun o => by rw [hmem], by rw [hmem], hrun⟩

theorem haltsWith_of_load_outOfBounds
    (hi : exec i s = .next (s.execute i.fields (loading (fun m => m.load n) kind)))
    (he : Executes i.fields s) (ho : OperandsInImage i.fields s)
    (hb : s.mem.capacity < n * (operand0 i.fields s).toNat + n) :
    HaltsWith i s (.memFault kind (operand0 i.fields s)) :=
  haltsWith_of_unit_fault hi he ho ((loading_eq ..).trans (if_neg (Nat.not_le.mpr hb)))

end AnyWidth

/-! ### STO8, STO16 and STO32 (R97–R99) -/

/-- Settles O31: the store rules at width 1. -/
theorem sto8CompletesOrFaults : Obligations.Sto8CompletesOrFaults := fun f _ hinv he ho =>
  ⟨completesStoring_of_inBounds (i := .sto8 f) rfl hinv he ho,
    haltsWith_of_store_outOfBounds (i := .sto8 f) rfl he ho, encodedAt_of_base rfl rfl rfl⟩

/-- Settles O32: the store rules at width 2. -/
theorem sto16CompletesOrFaults : Obligations.Sto16CompletesOrFaults := fun f _ hinv he ho =>
  ⟨completesStoring_of_inBounds (i := .sto16 f) rfl hinv he ho,
    haltsWith_of_store_outOfBounds (i := .sto16 f) rfl he ho, encodedAt_of_base rfl rfl rfl⟩

/-- Settles O33: the store rules at width 4. -/
theorem sto32CompletesOrFaults : Obligations.Sto32CompletesOrFaults := fun f _ hinv he ho =>
  ⟨completesStoring_of_inBounds (i := .sto32 f) rfl hinv he ho,
    haltsWith_of_store_outOfBounds (i := .sto32 f) rfl he ho, encodedAt_of_base rfl rfl rfl⟩

/-! ### LOD8, LOD16 and LOD32 (R100–R102) -/

theorem Memory.read_one (m : Memory) (o : Nat) : m.read o 1 = (m.readByte o).toNat := rfl

theorem Memory.read_two (m : Memory) (o : Nat) :
    m.read o 2 = (m.readByte o).toNat + 256 * (m.readByte (o + 1)).toNat := rfl

/-- Settles O34: the load rules at widths 1, 2 and 4. LOD8's rule writes the byte offset 1 · a as a, and LOD32's bound in
words. -/
theorem loadsCompleteOrFault : Obligations.LoadsCompleteOrFault := by
  intro f s he ho
  have hoffset : 1 * (operand0 f s).toNat = (operand0 f s).toNat := Nat.one_mul _
  refine ⟨fun hb => ?_, fun hb => ?_, fun hb => ?_, fun hb => ?_, fun hb => ?_, fun hb => ?_,
    encodedAt_of_base rfl rfl rfl, encodedAt_of_base rfl rfl rfl, encodedAt_of_base rfl rfl rfl⟩
  · refine completesWith_of_load_inBounds (i := .lod8 f) rfl he ho ?_ ?_
    · rwa [Instr.fields, hoffset]
    · rw [Instr.fields, hoffset, Memory.read_one]
  · exact haltsWith_of_load_outOfBounds (i := .lod8 f) rfl he ho (by rwa [Instr.fields, hoffset])
  · exact completesWith_of_load_inBounds (i := .lod16 f) rfl he ho hb (congrArg _ (Memory.read_two ..))
  · exact haltsWith_of_load_outOfBounds (i := .lod16 f) rfl he ho hb
  · exact completesWith_of_load_inBounds (i := .lod32 f) rfl he ho (Memory.word_le_capacity hb)
      (ofNat_read_four ..)
  · refine haltsWith_of_load_outOfBounds (i := .lod32 f) rfl he ho ?_
    rw [Instr.fields, Memory.capacity_eq]
    omega

end Sys2Proof.Machine
end

section
/-! The control family (spec/46_control.md): HLT and the unrecognized opcodes end the run at EXECUTE, after their
operands and before any write-back. -/

namespace Sys2Proof.Machine

/-! ### How EXECUTE ends for HLT and for an unrecognized opcode (R103, R104, R111) -/

section HaltingOperation

variable {s : State} {f : Fields} {unit : ExecUnit} {a b : Word}

theorem finish_halt (h : unit s.mem a b = .halt) : s.finish f unit a b = s.halt .hlt := by
  rw [State.finish, h]

theorem finish_illegal {op : BitVec 6} (h : unit s.mem a b = .illegal op) :
    s.finish f unit a b = s.halt (.illegalOpcode op) := by
  rw [State.finish, h]

end HaltingOperation

/-- The three rows of unrecognized opcodes have one Execution Unit operation, which records the opcode. -/
theorem haltsWith_of_illegal {i : Instr} {s : State} {op : BitVec 6}
    (hi : exec i s = .next (s.execute i.fields (fun _ _ _ => .illegal op)))
    (he : Executes i.fields s) (ho : OperandsInImage i.fields s) : HaltsWith i s (.illegalOpcode op) :=
  haltsWith_of_finish hi he ho (finish_illegal rfl)

/-! ### HLT and ILLEGAL -/

/-- Settles O35: HLT's operation answers halt whatever its operands, so only the pc has moved, past the immediates. -/
theorem hltHalts : Obligations.HltHalts := fun f _ he ho =>
  ⟨haltsWith_of_finish (i := .hlt f) rfl he ho (finish_halt rfl), rfl, encodedAt_of_base rfl rfl rfl⟩

/-- Settles O36: each row is `haltsWith_of_illegal`, the first at its one opcode and the others at the one they carry. -/
theorem illegalOpcodesHalt : Obligations.IllegalOpcodesHalt := fun f _ he ho =>
  ⟨haltsWith_of_illegal (i := .illegal29 f) rfl he ho, fun op => ⟨rfl,
    haltsWith_of_illegal (i := .illegal30to31 op f) rfl he ho,
    haltsWith_of_illegal (i := .illegal32to63 op f) rfl he ho⟩⟩

end Sys2Proof.Machine
end

section
/-! The exceptions family (spec/60_exceptions.md): a step that halts does so for a cause that held before it, and leaves
everything but the pc and the run state as it was. -/

namespace Sys2Proof.Machine

/-! ### When an operation of the Execution Unit halts (R103, R104, R107, R108) -/

/-- The reason EXECUTE halts for on an outcome of the Execution Unit, if it halts. `finish_of_haltReason` and
`finish_run_of_haltReason_none` tie it to `State.finish`. -/
def EuOutcome.haltReason : EuOutcome → Option HaltReason
  | .ok _ _ _ => none
  | .halt => some .hlt
  | .illegal op => some (.illegalOpcode op)
  | .fault r => some r

section HaltReason

variable {m : Memory} {a b : Word}

theorem finish_of_haltReason {s : State} {unit : ExecUnit} {r : HaltReason}
    (h : (unit s.mem a b).haltReason = some r) (f : Fields) : s.finish f unit a b = s.halt r := by
  unfold State.finish
  cases hout : unit s.mem a b <;> rw [hout] at h <;> cases h <;> rfl

theorem finish_run_of_haltReason_none {s : State} {unit : ExecUnit} (h : (unit s.mem a b).haltReason = none)
    (f : Fields) : (s.finish f unit a b).run = s.run := by
  rcases finish_cases s f unit a b with ⟨r0, r1, m, -, hf⟩ | ⟨r, -, ⟨hout, -⟩ | ⟨op, hout, -⟩ | hout⟩
  · rw [hf, State.writeBack_run, State.withMem_run]
  all_goals
    rw [hout] at h
    cases h

/-- An access that completes in the image and faults outside it halts only for the fault, and only outside. -/
theorem haltReason_ite_fault {c : Prop} [Decidable c] {out : EuOutcome} {fault : HaltReason} {P : HaltReason → Prop}
    (hout : out.haltReason = none) (hP : ¬ c → P fault) :
    ∀ r, (if c then out else .fault fault).haltReason = some r → P r := by
  intro r h
  split at h
  case isTrue =>
    rw [hout] at h
    cases h
  case isFalse hc =>
    cases h
    exact hP hc

variable {P : HaltReason → Prop}

theorem haltReason_storing {n : Nat} {kind : AccessKind} (hP : m.capacity < n * a.toNat + n → P (.memFault kind a)) :
    ∀ r, (storing (fun m => m.store n) kind m a b).haltReason = some r → P r := by
  rw [storing_eq]
  exact haltReason_ite_fault rfl fun hb => hP (Nat.not_le.mp hb)

theorem haltReason_loading {n : Nat} {kind : AccessKind} (hP : m.capacity < n * a.toNat + n → P (.memFault kind a)) :
    ∀ r, (loading (fun m => m.load n) kind m a b).haltReason = some r → P r := by
  rw [loading_eq]
  exact haltReason_ite_fault rfl fun hb => hP (Nat.not_le.mp hb)

theorem haltReason_divUnit (hP : b = 0#32 → P (.divByZero a)) : ∀ r, (divUnit m a b).haltReason = some r → P r := by
  intro r h
  unfold divUnit at h
  split at h
  case isTrue hb =>
    cases h
    exact hP hb
  case isFalse => cases h

end HaltReason

/-- What R105 to R111 ask of a halt at EXECUTE with reason `r`: its cause held, and the pc is past the immediates. -/
structure HaltsAtExecute (s : State) (r : HaltReason) : Prop where
  cause : HaltCause s r
  pc : haltPc s r = pcAfterOperands (fieldsOf (fetchedWord s)) s.advancePc

/-- Every meaning runs one operation of the Execution Unit, which on the fetched operands halts only for the reason that
the fetched opcode allows. -/
theorem exec_haltsAtExecute {i : Instr} {s : State} (hwf : i.wf = true) (hop : fetchedOpcode s = i.opcode.toNat) :
    ∃ unit, (∀ s', exec i s' = .next (s'.execute i.fields unit)) ∧
      ∀ r, (unit s.mem (fetchedOperand0 s) (fetchedOperand1 s)).haltReason = some r → HaltsAtExecute s r := by
  have hcap := s.mem.capacity_eq
  cases i with
  | sto8 f =>
    exact ⟨_, fun _ => rfl, haltReason_storing (n := 1) fun hb => ⟨⟨hop, rfl, by omega⟩, rfl⟩⟩
  | sto16 f =>
    exact ⟨_, fun _ => rfl, haltReason_storing (n := 2) fun hb => ⟨⟨hop, rfl, by omega⟩, rfl⟩⟩
  | sto32 f =>
    exact ⟨_, fun _ => rfl, haltReason_storing (n := 4) fun hb => ⟨⟨hop, rfl, by omega⟩, rfl⟩⟩
  | lod8 f =>
    exact ⟨_, fun _ => rfl, haltReason_loading (n := 1) fun hb => ⟨⟨hop, rfl, by omega⟩, rfl⟩⟩
  | lod16 f =>
    exact ⟨_, fun _ => rfl, haltReason_loading (n := 2) fun hb => ⟨⟨hop, rfl, by omega⟩, rfl⟩⟩
  | lod32 f =>
    exact ⟨_, fun _ => rfl, haltReason_loading (n := 4) fun hb => ⟨⟨hop, rfl, by omega⟩, rfl⟩⟩
  | div f => exact ⟨divUnit, fun _ => rfl, haltReason_divUnit fun hb => ⟨⟨hop, rfl, hb⟩, rfl⟩⟩
  | hlt f => exact ⟨_, fun _ => rfl, fun | _, rfl => ⟨hop, rfl⟩⟩
  | illegal29 f =>
    have hge := opcode_ge_of_unrecognized (op := 29#6) hwf (.inl rfl)
    exact ⟨_, fun _ => rfl, fun | _, rfl => ⟨⟨hop, hge⟩, rfl⟩⟩
  | illegal30to31 op f =>
    have hge := opcode_ge_of_unrecognized hwf (.inr (.inl rfl))
    exact ⟨_, fun _ => rfl, fun | _, rfl => ⟨⟨hop, hge⟩, rfl⟩⟩
  | illegal32to63 op f =>
    have hge := opcode_ge_of_unrecognized hwf (.inr (.inr rfl))
    exact ⟨_, fun _ => rfl, fun | _, rfl => ⟨⟨hop, hge⟩, rfl⟩⟩
  | _ => exact ⟨computing _, fun _ => rfl, nofun⟩

/-! ### The halting step (R105–R111) -/

/-- What R105 to R111 say of a step from `s` that ends in `t`, HALTED for `r`. -/
structure PreciseHalt (s t : State) (r : HaltReason) : Prop where
  cause : HaltCause s r
  executes : (∀ p, r ≠ .pcEscape p) → Executes (fieldsOf (fetchedWord s)) s.advancePc
  mem : t.mem = s.mem
  reg : ∀ j, t.reg j = if j = pcIndex then haltPc s r else s.reg j

section PreciseHalt

variable {s t : State} {r : HaltReason}

theorem preciseHalt_pcEscape (hout : s.mem.size ≤ s.pc.toNat) :
    PreciseHalt s (s.halt (.pcEscape s.pc)) (.pcEscape s.pc) where
  cause := ⟨rfl, hout⟩
  executes h := absurd rfl (h s.pc)
  mem := rfl
  reg j := by by_cases hj : j = pcIndex <;> simp [hj, haltPc, State.pc_eq]

/-- The registers of a halted state, where only the pc has moved since before FETCH. -/
theorem reg_eq_of_advancePc {pc : Word} (h : ∀ j, t.reg j = if j = pcIndex then pc else s.advancePc.reg j)
    (j : RegIdx) : t.reg j = if j = pcIndex then pc else s.reg j := by
  rw [h, State.advancePc_reg]
  split <;> rfl

theorem preciseHalt_missingImmediate (he : Executes (fieldsOf (fetchedWord s)) s.advancePc)
    (ho : ¬ OperandsInImage (fieldsOf (fetchedWord s)) s.advancePc) (unit : ExecUnit)
    (ht : s.advancePc.execute (fieldsOf (fetchedWord s)) unit = t) (hr : t.run = .halted r) : PreciseHalt s t r := by
  rcases missing0_or_missing1 ho with ⟨hi, hout⟩ | ⟨hin, hi, hout⟩
  · rw [execute_missing0 he hi hout] at ht
    subst ht
    cases hr
    refine ⟨⟨hout, .inl ⟨hi, State.advancePc_pc s⟩⟩, fun _ => he, State.advancePc_mem s,
      reg_eq_of_advancePc fun j => ?_⟩
    by_cases hj : j = pcIndex <;> simp [hj, haltPc, State.pc_eq]
  · obtain ⟨s1, hs1, hmem, hreg⟩ := execute_missing1 he hin hi hout unit
    rw [hs1] at ht
    subst ht
    cases hr
    exact ⟨⟨hout, .inr ⟨hi, rfl⟩⟩, fun _ => he, hmem, reg_eq_of_advancePc hreg⟩

theorem preciseHalt_atExecute (he : Executes (fieldsOf (fetchedWord s)) s.advancePc) (hr : HaltsAtExecute s r) :
    PreciseHalt s ((s.advancePc.afterOperands (fieldsOf (fetchedWord s))).halt r) r where
  cause := hr.cause
  executes _ := he
  mem := State.afterOperands_mem _ _
  reg := reg_eq_of_advancePc fun j => by rw [hr.pc, State.halt_reg, State.afterOperands_reg]

/-- A halting step ended at FETCH, at operand resolution or at EXECUTE: a skipped instruction and a completing one stay
RUNNING. -/
theorem step_preciseHalt (hrun : s.run = .running) (hstep : step s = .next t) (ht : t.run = .halted r) :
    PreciseHalt s t r := by
  rcases step_cases s with ⟨r', hr', -⟩ | ⟨-, hout, hnext⟩ | ⟨-, -, hexec⟩
  · rw [hrun] at hr'
    cases hr'
  · rw [hnext] at hstep
    cases hstep
    cases ht
    exact preciseHalt_pcEscape hout
  obtain ⟨unit, hunit, hcause⟩ := exec_haltsAtExecute (decode_wf (fetchedWord s)) (decode_opcode_toNat _).symm
  rw [← fetchedWord, hunit, decode_fields] at hexec
  obtain rfl := Host.Outcome.next.inj (hexec.symm.trans hstep)
  rcases execute_cases s.advancePc (fieldsOf (fetchedWord s)) unit with ⟨-, hs⟩ | ⟨he, ho, -⟩ | ⟨he, ho, hs⟩
  · rw [hs, State.advancePc_run, hrun] at ht
    cases ht
  · exact preciseHalt_missingImmediate he ho unit rfl ht
  · rw [← fetchedOperand0, ← fetchedOperand1] at hs
    have hmem : (s.advancePc.afterOperands (fieldsOf (fetchedWord s))).mem = s.mem := State.afterOperands_mem _ _
    cases hreason : (unit s.mem (fetchedOperand0 s) (fetchedOperand1 s)).haltReason with
    | none =>
      rw [hs, finish_run_of_haltReason_none (by rwa [hmem]), State.afterOperands_run, State.advancePc_run, hrun] at ht
      cases ht
    | some r' =>
      rw [finish_of_haltReason (by rwa [hmem])] at hs
      rw [hs] at ht ⊢
      cases ht
      exact preciseHalt_atExecute he (hcause r hreason)

end PreciseHalt

/-- Settles O47: a halting step is a `PreciseHalt`, which holds the cause of the halt. -/
theorem haltReasonsHaveTheirCauses : Obligations.HaltReasonsHaveTheirCauses := fun _ _ _ hrun hstep ht =>
  have h := step_preciseHalt hrun hstep ht
  ⟨h.cause, h.executes⟩

/-- Settles O48: a halting step is a `PreciseHalt`, which holds the frame of the halt. -/
theorem haltsArePrecise : Obligations.HaltsArePrecise := fun _ _ _ hrun hstep ht =>
  have h := step_preciseHalt hrun hstep ht
  ⟨h.mem, (h.reg pcIndex).trans (if_pos rfl), fun j hj => (h.reg j).trans (if_neg hj)⟩

/-- Settles O9: FETCH fails before it moves the pc, and PC_ESCAPE is one of the two normal reasons. -/
theorem pcOutsideTheImageEndsTheRun : Obligations.PcOutsideTheImageEndsTheRun := by
  intro s hrun hout
  have hstep : step s = .next (s.halt (.pcEscape s.pc)) := by
    rw [step, hrun, fetch_error hout]
  exact ⟨_, hstep, rfl, ⟨_, rfl, rfl⟩, rfl, rfl⟩

/-- Settles O30: on operand1 = 0 DIV's operation is a fault that records operand0. -/
theorem divByZeroHalts : Obligations.DivByZeroHalts := fun f _ he ho hb =>
  ⟨haltsWith_of_unit_fault (i := .div f) rfl he ho (if_pos hb), rfl⟩

end Sys2Proof.Machine
end

section
/-! The round trips of the encoding (spec/30_encoding.md): word to instruction and back, from the bytes of memory, and
from an assembler line. -/

namespace Sys2Proof.Machine

/-- Settles O2: by `decode_encode`, the opcode and the fields are read back from the encoded word, and OPCODE_MAP holds the
instruction at its opcode. -/
theorem decodeOfEncodeIsTheInstruction : Obligations.DecodeOfEncodeIsTheInstruction := fun _ => decode_encode

/-! ### From a word and back (R45, R46) -/

theorem toNat_bitAt (w : Word) (i : Nat) : (bitAt w i).toNat = slice w i 1 := by
  rw [bitAt]
  rcases Nat.mod_two_eq_zero_or_one (w.toNat / 2 ^ i) with h | h <;> simp [slice, h]

/-- A field and the bits below it are the low bits up to the field's end. -/
theorem slice_mul_add_mod (w : Word) {lo width hi : Nat} (h : lo + width = hi) :
    slice w lo width * 2 ^ lo + w.toNat % 2 ^ lo = w.toNat % 2 ^ hi := by
  rw [← h, slice, pow_add, Nat.mod_mul, Nat.add_comm, Nat.mul_comm]

/-- The fields of a word are all of its bits below the opcode: each adds its slice to the bits below it. -/
theorem packFields_fieldsOf (w : Word) : packFields (fieldsOf w) = w.toNat % 2 ^ 26 := by
  have hce := slice_mul_add_mod w (rfl : 25 + 1 = 26)
  have hci := slice_mul_add_mod w (rfl : 24 + 1 = 25)
  have hcr := slice_mul_add_mod w (rfl : 20 + 4 = 24)
  have hd0 := slice_mul_add_mod w (rfl : 16 + 4 = 20)
  have hd1 := slice_mul_add_mod w (rfl : 12 + 4 = 16)
  have hs0 := slice_mul_add_mod w (rfl : 8 + 4 = 12)
  have hs1 := slice_mul_add_mod w (rfl : 4 + 4 = 8)
  have hwe0 := slice_mul_add_mod w (rfl : 3 + 1 = 4)
  have hwe1 := slice_mul_add_mod w (rfl : 2 + 1 = 3)
  have himm0 := slice_mul_add_mod w (rfl : 1 + 1 = 2)
  have himm1 : slice w 0 1 = w.toNat % 2 ^ 1 := by rw [slice, pow_zero, Nat.div_one]
  simp only [packFields, fieldsOf, toNat_bitAt, regAt]
  linarith

theorem encodeWord_opcodeOf_fieldsOf (w : Word) : encodeWord (opcodeOf w) (fieldsOf w) = w := by
  apply BitVec.eq_of_toNat_eq
  rw [encodeWord_toNat, opcodeOf_toNat, packFields_fieldsOf]
  exact Nat.div_add_mod' _ _

/-- Settles O3: the decoder keeps the opcode and the fields, and together they are the word. -/
theorem encodeOfDecodeIsTheWord : Obligations.EncodeOfDecodeIsTheWord := by
  intro w
  refine ⟨decode_wf w, ?_⟩
  rw [encode, decode_opcode, decode_fields, encodeWord_opcodeOf_fieldsOf]

/-! ### From little-endian bytes (R29) -/

theorem wordOfBytes_littleEndian (v : Nat) :
    wordOfBytes (BitVec.ofNat 8 v) (BitVec.ofNat 8 (v / 256)) (BitVec.ofNat 8 (v / 256 / 256))
      (BitVec.ofNat 8 (v / 256 / 256 / 256)) = BitVec.ofNat 32 v := by
  apply BitVec.eq_of_toNat_eq
  simp only [wordOfBytes, BitVec.toNat_ofNat]
  omega

/-- A table word of 32 bits is laid out as the four bytes of its instruction word, and zeros. -/
theorem tableBytes_eq_cons {w : Nat} (hw : w < 2 ^ 32) :
    tableBytes 32 w = BitVec.ofNat 8 w :: BitVec.ofNat 8 (w / 256) :: BitVec.ofNat 8 (w / 256 / 256) ::
      BitVec.ofNat 8 (w / 256 / 256 / 256) :: littleEndian 8 (w / 256 / 256 / 256 / 256) := by
  rw [tableBytes, Nat.mod_eq_of_lt hw]
  rfl

/-- Settles O6: the bytes of a table word start with the four bytes of its instruction word. -/
theorem tableWordsReachTheDecoder : Obligations.TableWordsReachTheDecoder := by
  intro w hw
  simp only [decodeTableWord, tableBytes_eq_cons hw, decodeBytes, wordOfBytes_littleEndian]

/-! ### From an assembler line (R57) -/

theorem Source.length_words (src : Source) : src.words.length = src.isImm.toNat := by
  cases src <;> rfl

/-- Settles O7: a line assembles to `encodeWord` of its opcode and fields, and both are read back from that word. -/
theorem assembledLineDecodesToItsFields : Obligations.AssembledLineDecodesToItsFields := by
  intro l
  refine ⟨encodeWord l.opcode l.fields, rfl, ?_, ?_⟩
  · rw [decode, opcodeOf_encodeWord, fieldsOf_encodeWord]
  · rw [List.length_append, Source.length_words, Source.length_words]
    rfl

/-- Settles O1: the decoder evaluated on each of the spec's words. -/
theorem sampleWordsDecode : Obligations.SampleWordsDecode :=
  ⟨rfl, rfl, rfl, rfl, rfl, rfl, rfl, rfl, rfl, rfl, rfl⟩

end Sys2Proof.Machine
end

section
/-! The reset and run family (spec/70_reset_and_hazards.md): the state a run starts from, what a run of more steps
shows, and the word that the next step fetches. -/

namespace Sys2Proof.Machine

/-! ### The loaded state and reset (R119–R122, R130) -/

/-- The state a file that fits is loaded into. -/
theorem load_of_fits {n : Nat} {file : List Byte} (h : file.length ≤ 4 * n) :
    ∃ s, load n file = .ok s ∧ s.mem = Memory.mk n (cellsOfBytes 0 file) ∧ s.run = .running ∧ ∀ j, s.reg j = 0#32 :=
  ⟨_, if_pos h, rfl, rfl, fun j => Vector.getElem_replicate j.isLt⟩

theorem readByte_cellsOfBytes (n k : Nat) (file : List Byte) :
    (Memory.mk n (cellsOfBytes 0 file)).readByte k = (file[k]?).getD 0#8 := by
  rw [Memory.readByte, readCells_cellsOfBytes, if_pos (Nat.zero_le k)]
  rfl

/-- Settles O49: the cells of the loaded memory read as the file, and as zero past its end. -/
theorem loaderPlacesTheFile : Obligations.LoaderPlacesTheFile := by
  intro n file hfits
  obtain ⟨s, hload, hmem, -, -⟩ := load_of_fits hfits
  refine ⟨s, hload, by rw [hmem], fun k hk => ?_, fun k hk => ?_⟩
  · rw [hmem, readByte_cellsOfBytes, List.getElem?_eq_getElem hk, Option.getD_some]
  · rw [hmem, readByte_cellsOfBytes, List.getElem?_eq_none hk, Option.getD_none]

/-- Settles O50: the cells of a file that fits are in canonical form inside the image. -/
theorem loadedStateIsReadyToRun : Obligations.LoadedStateIsReadyToRun := by
  intro n file hmin hmax
  refine ⟨fun hlarge => if_neg (Nat.not_le.mpr hlarge), fun hfits => ?_⟩
  obtain ⟨s, hload, hmem, hrun, hreg⟩ := load_of_fits hfits
  have hcells := canonicalCells_cellsOfBytes (Nat.zero_le 0) (Nat.le_trans (Nat.zero_add _).le hfits)
  refine ⟨s, hload, ?_, hrun, hreg⟩
  rw [State.Inv, hmem, Memory.wf_iff]
  exact ⟨⟨hmin, hmax⟩, hcells⟩

/-- Settles O51: reset is the state loaded from the empty file, so its bytes are those past the file's end. -/
theorem resetLeavesTheSpecsValues : Obligations.ResetLeavesTheSpecsValues := by
  obtain ⟨s, hload, hmem, hrun, hreg⟩ := load_of_fits (n := Config.resetMemorySize) (file := []) (Nat.zero_le _)
  obtain rfl : s = State.reset := Except.ok.inj (hload.symm.trans load_nil)
  refine ⟨hreg, hreg pcIndex, fun o => ?_, hrun⟩
  rw [hmem, readByte_cellsOfBytes, List.getElem?_nil, Option.getD_none]

/-! ### Running for some steps (R133) -/

section Running

variable {s t : State}

theorem observe_of_running (h : s.run = .running) : s.observe = none := by
  rw [State.observe, h]

theorem runFor_zero_of_running (h : s.run = .running) : runFor 0 s = .unfinished s := by
  rw [runFor, observe_of_running h]

theorem runFor_succ_of_step (h : s.run = .running) (hstep : step s = .next t) (k : Nat) :
    runFor (k + 1) s = runFor k t := by
  rw [runFor, observe_of_running h, hstep]

end Running

/-- A run that ended is over however many more steps it is given. -/
theorem runFor_ended_of_le {k k' : Nat} {s : State} {o : Observation} (hle : k ≤ k') (h : runFor k s = .ended o) :
    runFor k' s = .ended o := by
  induction k generalizing k' s with
  | zero =>
    cases hrun : s.run with
    | halted r => rwa [runFor_of_halted hrun] at h ⊢
    | running =>
      rw [runFor_zero_of_running hrun] at h
      cases h
  | succ k ih =>
    cases hrun : s.run with
    | halted r => rwa [runFor_of_halted hrun] at h ⊢
    | running =>
      obtain ⟨t, hstep⟩ := stepFromRunningAlwaysAnswers s hrun
      obtain ⟨d, rfl⟩ := Nat.exists_eq_add_of_le' hle
      rw [runFor_succ_of_step hrun hstep] at h
      exact (runFor_succ_of_step hrun hstep (d + k)).trans (ih (Nat.le_add_left k d) h)

/-- A step from RUNNING always answers, so no run gets stuck. -/
theorem runFor_ne_stuck (k : Nat) (s u : State) : runFor k s ≠ .stuck u := by
  induction k generalizing s with
  | zero =>
    cases hrun : s.run with
    | halted r => simp [runFor_of_halted hrun]
    | running => simp [runFor_zero_of_running hrun]
  | succ k ih =>
    cases hrun : s.run with
    | halted r => simp [runFor_of_halted hrun]
    | running =>
      obtain ⟨t, hstep⟩ := stepFromRunningAlwaysAnswers s hrun
      rw [runFor_succ_of_step hrun hstep]
      exact ih t

/-- Settles O52: `runFor_ended_of_le` and `runFor_ne_stuck`. -/
theorem moreFuelKeepsTheResult : Obligations.MoreFuelKeepsTheResult := fun s =>
  ⟨fun _ _ _ hle => runFor_ended_of_le hle, fun k u => runFor_ne_stuck k s u⟩

theorem HaltReason.isNormal_iff (r : HaltReason) : r.isNormal = true ↔ r = .hlt ∨ ∃ p, r = .pcEscape p := by
  cases r <;> simp [HaltReason.isNormal]

/-- Settles O53: HLT and PC_ESCAPE are the normal reasons. -/
theorem successIsExactlyANormalReason : Obligations.SuccessIsExactlyANormalReason := by
  intro s
  constructor
  · rintro ⟨r, hr, hnormal⟩
    rcases r.isNormal_iff.mp hnormal with rfl | ⟨p, rfl⟩
    · exact .inl hr
    · exact .inr ⟨p, hr⟩
  · rintro (hr | ⟨p, hr⟩)
    · exact ⟨_, hr, rfl⟩
    · exact ⟨_, hr, rfl⟩

/-! ### The placed word (R60, R130) -/

/-- Four bytes placed at a word index in the image are the word found there. -/
theorem wordAt_place {m : Memory} {a : Nat} (h : m.wf = true) (ha : a < m.size) (b0 b1 b2 b3 : Byte)
    (rest : List Byte) : wordAt (m.place (4 * a) (b0 :: b1 :: b2 :: b3 :: rest)) a = wordOfBytes b0 b1 b2 b3 := by
  have hcap := Memory.word_le_capacity ha
  have hbyte : ∀ k, k < 4 → (m.place (4 * a) (b0 :: b1 :: b2 :: b3 :: rest)).readByte (4 * a + k) =
      ((b0 :: b1 :: b2 :: b3 :: rest)[k]?).getD (m.readByte (4 * a + k)) := fun k hk => by
    rw [Memory.readByte_place h (by omega), if_pos (Nat.le_add_right _ _), Nat.add_sub_cancel_left]
  have h0 := hbyte 0 (by decide)
  rw [Nat.add_zero] at h0
  rw [wordAt, h0, hbyte 1 (by decide), hbyte 2 (by decide), hbyte 3 (by decide)]
  rfl

section WithFetchWord

variable {s : State} (nbits w : Nat)

theorem State.withFetchWord_mem : (s.withFetchWord nbits w).mem =
    s.fetchable.mem.place (4 * s.fetchable.pc.toNat) (tableBytes nbits w) := rfl

@[simp] theorem State.withFetchWord_pc : (s.withFetchWord nbits w).pc = s.fetchable.pc := rfl

@[simp] theorem State.withFetchWord_run : (s.withFetchWord nbits w).run = s.fetchable.run := rfl

end WithFetchWord

/-- Settles O54: the machine is RUNNING with its pc in the image, so the step runs the word it fetches, which is the
one placed there. -/
theorem placedWordIsTheNextInstruction : Obligations.PlacedWordIsTheNextInstruction := by
  intro s w hinv hw
  obtain ⟨hmem, hrun, hpc⟩ := State.fetchable_spec hinv
  have hin : (s.withFetchWord 32 w).pc.toNat < (s.withFetchWord 32 w).mem.size := by
    rw [State.withFetchWord_pc, State.withFetchWord_mem, Memory.place_size, hmem]
    exact hpc
  have hword : fetchedWord (s.withFetchWord 32 w) = BitVec.ofNat 32 w := by
    rw [fetchedWord, State.withFetchWord_pc, State.withFetchWord_mem, hmem, tableBytes_eq_cons hw,
      wordAt_place hinv hpc, wordOfBytes_littleEndian]
  rw [step_of_running ((State.withFetchWord_run 32 w).trans hrun) hin, hword]

end Sys2Proof.Machine
end
